-- ==== Sys2Proof/Word.lean ====
section
/-! DEFINITION. The sizes of data (00_scope.md R4, 10_state.md R10, R11) and the exact integers a word stands for. -/

namespace Sys2Proof

/-- A byte is 8 bits (R4). -/
abbrev Byte := BitVec 8

/-- A half word is 16 bits (R4). -/
abbrev Half := BitVec 16

/-- A word, a general register, an address and the program counter are 32 bits (R4, R11, R14, R30). -/
abbrev Word := BitVec 32

/-- The number of a general register, 0 to 15: the value of the 4-bit field that selects it (R10, R13). -/
abbrev RegIdx := Fin 16

end Sys2Proof
end

