-- ==== Sys2Proof/Config.lean ====
section
/-! DEFINITION. The OPEN parameters a platform fixes (92_eei_decisions.md, last section; 00_scope.md section 5) and
the one free value. The decided parameters of that section are named in Machine/Params.lean. -/

namespace Sys2Proof

/-- A run of populated RAM bytes: `size` addresses from `base` up. -/
structure Region where
  base : Nat
  size : Nat
  deriving DecidableEq, Repr

/-- The four parameters the spec leaves OPEN and has a model take as arguments. They are plain data, fixed for a
machine; no instruction reads or writes them (log 1). -/
structure Config where
  /-- `RESET_PC`: the program counter after reset (R190). -/
  resetPc : Word
  /-- `MEM_MAP`: the populated byte addresses, as a list of regions (R40). -/
  memMap : List Region
  /-- `ENC_NOP`: the whole word that is NOP (R66). -/
  encNop : Word
  /-- `ENC_HALT`: the whole word that is HALT (R66). -/
  encHalt : Word
  deriving DecidableEq, Repr

/-- The spec's defaults: `RESET_PC` = 0 (R190), `ENC_NOP` = 0x00000000 and `ENC_HALT` = 0x04000000 (R66).
DESIGN CHOICE (log 2): the spec names no default for `MEM_MAP`; here every address of the 32-bit space (R30) is RAM. -/
def Config.defaults : Config where
  resetPc := 0x00000000#32
  memMap := [⟨0, 4294967296⟩]
  encNop := 0x00000000#32
  encHalt := 0x04000000#32

/-- The free value of the model (U11, "any value"; log 6): what a populated byte holds that was neither loaded before
the run nor stored by the program, for one power-up (first argument) and one address (second argument). It has no
body, so nothing can be proved of the value. -/
opaque Config.unwrittenByte : Nat → Nat → Byte

end Sys2Proof
end

