-- ==== Sys2Proof/Machine/State.lean ====
section
/-! DEFINITION. The state of the machine (10_state.md), its values after reset, and the reasons a step can stop. -/

namespace Sys2Proof.Machine

/-- The contents of memory: the bytes that were loaded or stored, in the canonical form of `Memory.wf`. An address that
is not listed has no value of its own; what a read gives there is `State.byteAt`'s free value (R26, U11; log 6). -/
abbrev Memory := List Host.Cell

/-- The three condition flags (R18). They are not addressable as a register (R24). -/
structure Flags where
  /-- `F.Z`, zero -/
  z : Bool
  /-- `F.N`, negative -/
  n : Bool
  /-- `F.V`, overflow -/
  v : Bool
  deriving DecidableEq, Repr

/-- "The complete state of the machine is: sixteen general registers, the program counter, three condition flags, the
halted latch, and memory" (10_state.md); beside it the machine's parameters and the name of the power-up, which no
instruction reads as data or writes (log 1, log 6). -/
structure State where
  /-- `x[0]` .. `x[15]` (R10 to R13) -/
  regs : Vector Word 16
  /-- the address of the instruction being executed (R14, R15) -/
  pc : Word
  /-- `F.Z`, `F.N`, `F.V` (R18) -/
  flags : Flags
  /-- the halted latch (R25) -/
  halted : Bool
  /-- the bytes loaded or stored (R26) -/
  mem : Memory
  /-- the OPEN parameters of this machine -/
  config : Config
  /-- which power-up's unwritten bytes `Config.unwrittenByte` gives -/
  powerUp : Nat
  deriving DecidableEq, Repr

/-- The four fault stops of R171, with the values they carry. Each is precise and final (R172), and each is a safe
difference: the model stops where the source does not say what the hardware does. -/
inductive Fault where
  /-- Raised by the fetch of any instruction when `pc[1:0] != 0` (R37). Safe. -/
  | misalignedFetch (pc : Word)
  /-- Raised by a fetch, load or store when a byte of the access is outside `MEM_MAP`; carries the address of the
  access (R40). Safe. -/
  | accessFault (addr : Word)
  /-- Raised by decode when the fetched word matches no row of the opcode table (R78). Safe. -/
  | illegalInstruction (pc w : Word)
  /-- Raised by LDW, STW when `ea[1:0] != 0` and by LDHW, LDHWU, STHW when `ea[0] != 0` (R36). Safe. -/
  | misalignedAccess (ea : Word)
  deriving DecidableEq, Repr

/-- Reasons to give an instruction no meaning. -/
inductive Refusal where
  /-- Raised only by an arm of `exec` whose instruction has no meaning yet (none has been left so). Safe. -/
  | notModelled (mnemonic : String)
  deriving DecidableEq, Repr

/-- The state after reset (R27, R190) of a machine with parameters `c` whose platform has loaded `mem`: `pc` is
`RESET_PC`, `halted` is 0, memory is as loaded.
DESIGN CHOICE (log 4, log 5): the spec gives the registers and flags no value at reset; here they are zero.
DESIGN CHOICE (log 6): the power-up is named 0. -/
def State.resetWith (c : Config) (mem : Memory) : State where
  regs := Vector.replicate 16 0#32
  pc := c.resetPc
  flags := ⟨false, false, false⟩
  halted := false
  mem := mem
  config := c
  powerUp := 0

/-- The state after reset under the spec's default parameters, with nothing loaded. -/
def State.reset : State := .resetWith .defaults []

end Sys2Proof.Machine
end

