-- ==== Sys2Proof/Machine/Flags.lean ====
section
/-! DEFINITION. `FLAGS_MODEL`: the values the six flag-writing instructions give Z, N, V (10_state.md R20, R21) and the
conditions the four branches test (R22). -/

namespace Sys2Proof.Machine

/-- Flags of ADD and ADDI on operands `a`, `b` (R20). -/
def signedAddFlags (a b : Word) : Flags where
  z := a + b == 0#32
  n := (a + b).msb
  v := a.msb == b.msb && (a + b).msb != a.msb

/-- Flags of SUB and SUBI on operands `a`, `b` (R20). -/
def signedSubFlags (a b : Word) : Flags where
  z := a - b == 0#32
  n := (a - b).msb
  v := a.msb != b.msb && (a - b).msb != a.msb

/-- Flags of ADDU: V is the carry out of bit 31, N is 0 (R21). -/
def unsignedAddFlags (a b : Word) : Flags where
  z := a + b == 0#32
  n := false
  v := 4294967296 ≤ a.toNat + b.toNat

/-- Flags of SUBU: V is the borrow, N is 0 (R21). -/
def unsignedSubFlags (a b : Word) : Flags where
  z := a - b == 0#32
  n := false
  v := a.toNat < b.toNat

/-- BEQ, "equal": `F.Z == 1` (R22). -/
def Flags.equal (f : Flags) : Bool := f.z

/-- BNE, "not equal": `F.Z == 0` (R22). -/
def Flags.notEqual (f : Flags) : Bool := !f.z

/-- BGE, "greater or equal": `F.N == F.V` (R22). -/
def Flags.greaterOrEqual (f : Flags) : Bool := f.n == f.v

/-- BLT, "less than": `F.N != F.V` (R22). -/
def Flags.lessThan (f : Flags) : Bool := f.n != f.v

end Sys2Proof.Machine
end

