-- ==== Sys2Proof/Syntax.lean ====
section
/-! DEFINITION. The instructions: one constructor for each of the 39 rows of opcode_table.json, in the table's order.
Operands are named as the spec names them (00_scope.md section 6.2): `rd`, `ra`, `rb`, `rv` register numbers, `imm` the
raw bits of the Imm field, `shift` and `amount` shift counts. -/

namespace Sys2Proof

/-- An instruction with its operands. Shift counts are numbers; WellFormed.lean bounds them by their fields (log 18). -/
inductive Instr where
  /-- R146 -/
  | movil (rd : RegIdx) (imm : BitVec 16)
  /-- R147 -/
  | movih (rd : RegIdx) (imm : BitVec 16)
  /-- R145 -/
  | mov (rd rb : RegIdx)
  /-- R135 -/
  | ldbu (rv ra : RegIdx) (imm : BitVec 12) (shift : Nat)
  /-- R134 -/
  | ldb (rv ra : RegIdx) (imm : BitVec 12) (shift : Nat)
  /-- R133 -/
  | ldhwu (rv ra : RegIdx) (imm : BitVec 12) (shift : Nat)
  /-- R132 -/
  | ldhw (rv ra : RegIdx) (imm : BitVec 12) (shift : Nat)
  /-- R131 -/
  | ldw (rv ra : RegIdx) (imm : BitVec 12) (shift : Nat)
  /-- R138 -/
  | stb (rv ra : RegIdx) (imm : BitVec 12) (shift : Nat)
  /-- R137 -/
  | sthw (rv ra : RegIdx) (imm : BitVec 12) (shift : Nat)
  /-- R136 -/
  | stw (rv ra : RegIdx) (imm : BitVec 12) (shift : Nat)
  /-- R102 -/
  | addu (rd ra rb : RegIdx)
  /-- R101 -/
  | add (rd ra rb : RegIdx)
  /-- R103 -/
  | addi (rd ra : RegIdx) (imm : BitVec 16)
  /-- R105 -/
  | subu (rd ra rb : RegIdx)
  /-- R104 -/
  | sub (rd ra rb : RegIdx)
  /-- R106 -/
  | subi (rd ra : RegIdx) (imm : BitVec 16)
  /-- R111 -/
  | and (rd ra rb : RegIdx)
  /-- R112 -/
  | andi (rd ra : RegIdx) (imm : BitVec 16)
  /-- R113 -/
  | or (rd ra rb : RegIdx)
  /-- R114 -/
  | ori (rd ra : RegIdx) (imm : BitVec 16)
  /-- R115 -/
  | xor (rd ra rb : RegIdx)
  /-- R116 -/
  | xori (rd ra : RegIdx) (imm : BitVec 16)
  /-- R121 -/
  | sl (rd ra rb : RegIdx)
  /-- R122 -/
  | sli (rd ra : RegIdx) (amount : Nat)
  /-- R123 -/
  | sr (rd ra rb : RegIdx)
  /-- R124 -/
  | sri (rd ra : RegIdx) (amount : Nat)
  /-- R125 -/
  | sra (rd ra rb : RegIdx)
  /-- R126 -/
  | srai (rd ra : RegIdx) (amount : Nat)
  /-- R155 -/
  | j (imm : BitVec 16) (shift : Nat)
  /-- R156 -/
  | jr (ra : RegIdx)
  /-- R157 -/
  | jl (rd : RegIdx) (imm : BitVec 16) (shift : Nat)
  /-- R158 -/
  | jlr (rd ra : RegIdx) (imm : BitVec 16)
  /-- R151 -/
  | beq (imm : BitVec 16)
  /-- R154 -/
  | blt (imm : BitVec 16)
  /-- R153 -/
  | bge (imm : BitVec 16)
  /-- R152 -/
  | bne (imm : BitVec 16)
  /-- R165 -/
  | nop
  /-- R166 -/
  | halt
  deriving DecidableEq, Repr

end Sys2Proof
end

