-- ==== Sys2Proof/WellFormed.lean ====
section
/-! DEFINITION. Which instruction terms an encoding can hold. Register numbers and immediates are bounded by their
types; the three checks bound the shift counts. The well-formedness of the parameters `ENC_NOP` and `ENC_HALT` needs
the opcode table and stands beside it: `Config.wf` in Decode.lean. -/

namespace Sys2Proof

/-- SLI, SRI, SRAI: the amount is the 5-bit field [4:0], 0 to 31; "an assembler operand above 31 cannot be encoded"
(R72, R122). -/
def amountFits (amount : Nat) : Bool := amount < 32

/-- Loads and stores: `shift` is the 4-bit field [15:12], 0 to 15 (R74). -/
def memShiftFits (shift : Nat) : Bool := shift < 16

/-- J and JL: "Imm shift" is the 4-bit field [21:18], 0 to 15 (R76). -/
def jumpShiftFits (shift : Nat) : Bool := shift < 16

/-- The instruction can be encoded. -/
def Instr.wf : Instr → Bool
  | .movil _ _ => true
  | .movih _ _ => true
  | .mov _ _ => true
  | .ldbu _ _ _ shift => memShiftFits shift
  | .ldb _ _ _ shift => memShiftFits shift
  | .ldhwu _ _ _ shift => memShiftFits shift
  | .ldhw _ _ _ shift => memShiftFits shift
  | .ldw _ _ _ shift => memShiftFits shift
  | .stb _ _ _ shift => memShiftFits shift
  | .sthw _ _ _ shift => memShiftFits shift
  | .stw _ _ _ shift => memShiftFits shift
  | .addu _ _ _ => true
  | .add _ _ _ => true
  | .addi _ _ _ => true
  | .subu _ _ _ => true
  | .sub _ _ _ => true
  | .subi _ _ _ => true
  | .and _ _ _ => true
  | .andi _ _ _ => true
  | .or _ _ _ => true
  | .ori _ _ _ => true
  | .xor _ _ _ => true
  | .xori _ _ _ => true
  | .sl _ _ _ => true
  | .sli _ _ amount => amountFits amount
  | .sr _ _ _ => true
  | .sri _ _ amount => amountFits amount
  | .sra _ _ _ => true
  | .srai _ _ amount => amountFits amount
  | .j _ shift => jumpShiftFits shift
  | .jr _ => true
  | .jl _ _ shift => jumpShiftFits shift
  | .jlr _ _ _ => true
  | .beq _ => true
  | .blt _ => true
  | .bge _ => true
  | .bne _ => true
  | .nop => true
  | .halt => true

end Sys2Proof
end

