-- ==== Sys2Proof/Decode.lean ====
section
/-! DEFINITION. From bits to instructions and back (30_encoding.md). The decoder is the opcode table read as R78 says:
a word is the instruction of the one row with `(w & mask) = match`. The encoder below it is written from the format
tables R52 to R62 and the opcode map R64, not from the rows' masks. Bit 0 is the least significant bit (R3). -/

namespace Sys2Proof

/-! ## Fields -/

/-- The register whose number is a 4-bit field (R13). -/
def regOf (b : BitVec 4) : RegIdx := ⟨b.toNat, b.isLt⟩

/-- The 4-bit field that selects a register (R13). -/
def regBits (r : RegIdx) : BitVec 4 := BitVec.ofNat 4 r.val

/-- `opcode` = [31:26] (R51). -/
def fieldOpcode (w : Word) : BitVec 6 := w.extractLsb' 26 6

/-- `ext` = [17:16] (R51). -/
def fieldExt (w : Word) : BitVec 2 := w.extractLsb' 16 2

/-- Rd, or Rv in loads and stores, = [25:22] (R51). -/
def fieldRd (w : Word) : RegIdx := regOf (w.extractLsb' 22 4)

/-- Ra = [21:18] (R51). -/
def fieldRa (w : Word) : RegIdx := regOf (w.extractLsb' 18 4)

/-- Rb = [3:0] (R51). -/
def fieldRb (w : Word) : RegIdx := regOf (w.extractLsb' 0 4)

/-- Imm = [15:0] (R53, R56, R58, R59, R61, R62). -/
def fieldImm16 (w : Word) : BitVec 16 := w.extractLsb' 0 16

/-- Imm = [11:0] of a load or store (R57). -/
def fieldImm12 (w : Word) : BitVec 12 := w.extractLsb' 0 12

/-- shift = [15:12] of a load or store, an unsigned number (R57, R74). -/
def fieldMemShift (w : Word) : Nat := (w.extractLsb' 12 4).toNat

/-- "Imm shift" = [21:18] of J and JL, an unsigned number (R59, R61, R76). -/
def fieldJumpShift (w : Word) : Nat := (w.extractLsb' 18 4).toNat

/-- Imm = [4:0] of SLI, SRI, SRAI, an unsigned number (R54, R72). -/
def fieldAmount (w : Word) : Nat := (w.extractLsb' 0 5).toNat

/-! ## The opcode table -/

/-- One row of opcode_table.json: a word belongs to it when `(w & mask) = match`; `build` cuts the fields of its
format out of the word. -/
structure OpRow where
  mnemonic : String
  pattern : Word
  mask : Word
  build : Word → Instr

/-- The word belongs to the row (R78). -/
def OpRow.fits (r : OpRow) (w : Word) : Bool := w &&& r.mask == r.pattern

/-- Group 0001, move (R64). -/
def moveRows : List OpRow :=
  [⟨"MOVIL", 0x14010000#32, 0xFC3F0000#32,
    fun w => .movil (fieldRd w) (fieldImm16 w)⟩,
   ⟨"MOVIH", 0x18010000#32, 0xFC3F0000#32,
    fun w => .movih (fieldRd w) (fieldImm16 w)⟩,
   ⟨"MOV", 0x1C000000#32, 0xFC3FFFF0#32,
    fun w => .mov (fieldRd w) (fieldRb w)⟩]

/-- Group 0010, load (R64, R80: ext[0] is 1, and LDW has ext 11 only). -/
def loadRows : List OpRow :=
  [⟨"LDBU", 0x20010000#32, 0xFC030000#32,
    fun w => .ldbu (fieldRd w) (fieldRa w) (fieldImm12 w) (fieldMemShift w)⟩,
   ⟨"LDB", 0x20030000#32, 0xFC030000#32,
    fun w => .ldb (fieldRd w) (fieldRa w) (fieldImm12 w) (fieldMemShift w)⟩,
   ⟨"LDHWU", 0x24010000#32, 0xFC030000#32,
    fun w => .ldhwu (fieldRd w) (fieldRa w) (fieldImm12 w) (fieldMemShift w)⟩,
   ⟨"LDHW", 0x24030000#32, 0xFC030000#32,
    fun w => .ldhw (fieldRd w) (fieldRa w) (fieldImm12 w) (fieldMemShift w)⟩,
   ⟨"LDW", 0x2C030000#32, 0xFC030000#32,
    fun w => .ldw (fieldRd w) (fieldRa w) (fieldImm12 w) (fieldMemShift w)⟩]

/-- Group 0011, store (R64, R80). -/
def storeRows : List OpRow :=
  [⟨"STB", 0x30010000#32, 0xFC030000#32,
    fun w => .stb (fieldRd w) (fieldRa w) (fieldImm12 w) (fieldMemShift w)⟩,
   ⟨"STHW", 0x34010000#32, 0xFC030000#32,
    fun w => .sthw (fieldRd w) (fieldRa w) (fieldImm12 w) (fieldMemShift w)⟩,
   ⟨"STW", 0x3C010000#32, 0xFC030000#32,
    fun w => .stw (fieldRd w) (fieldRa w) (fieldImm12 w) (fieldMemShift w)⟩]

/-- Group 0100, arithmetic (R64). -/
def arithmeticRows : List OpRow :=
  [⟨"ADDU", 0x40000000#32, 0xFC03FFF0#32,
    fun w => .addu (fieldRd w) (fieldRa w) (fieldRb w)⟩,
   ⟨"ADD", 0x40020000#32, 0xFC03FFF0#32,
    fun w => .add (fieldRd w) (fieldRa w) (fieldRb w)⟩,
   ⟨"ADDI", 0x40030000#32, 0xFC030000#32,
    fun w => .addi (fieldRd w) (fieldRa w) (fieldImm16 w)⟩,
   ⟨"SUBU", 0x44000000#32, 0xFC03FFF0#32,
    fun w => .subu (fieldRd w) (fieldRa w) (fieldRb w)⟩,
   ⟨"SUB", 0x44020000#32, 0xFC03FFF0#32,
    fun w => .sub (fieldRd w) (fieldRa w) (fieldRb w)⟩,
   ⟨"SUBI", 0x44030000#32, 0xFC030000#32,
    fun w => .subi (fieldRd w) (fieldRa w) (fieldImm16 w)⟩]

/-- Group 0101, logic (R64). -/
def logicRows : List OpRow :=
  [⟨"AND", 0x50000000#32, 0xFC03FFF0#32,
    fun w => .and (fieldRd w) (fieldRa w) (fieldRb w)⟩,
   ⟨"ANDI", 0x50010000#32, 0xFC030000#32,
    fun w => .andi (fieldRd w) (fieldRa w) (fieldImm16 w)⟩,
   ⟨"OR", 0x54000000#32, 0xFC03FFF0#32,
    fun w => .or (fieldRd w) (fieldRa w) (fieldRb w)⟩,
   ⟨"ORI", 0x54010000#32, 0xFC030000#32,
    fun w => .ori (fieldRd w) (fieldRa w) (fieldImm16 w)⟩,
   ⟨"XOR", 0x58000000#32, 0xFC03FFF0#32,
    fun w => .xor (fieldRd w) (fieldRa w) (fieldRb w)⟩,
   ⟨"XORI", 0x58010000#32, 0xFC030000#32,
    fun w => .xori (fieldRd w) (fieldRa w) (fieldImm16 w)⟩]

/-- Group 0110, shift (R64). -/
def shiftRows : List OpRow :=
  [⟨"SL", 0x60000000#32, 0xFC03FFF0#32,
    fun w => .sl (fieldRd w) (fieldRa w) (fieldRb w)⟩,
   ⟨"SLI", 0x60010000#32, 0xFC03FFE0#32,
    fun w => .sli (fieldRd w) (fieldRa w) (fieldAmount w)⟩,
   ⟨"SR", 0x64000000#32, 0xFC03FFF0#32,
    fun w => .sr (fieldRd w) (fieldRa w) (fieldRb w)⟩,
   ⟨"SRI", 0x64010000#32, 0xFC03FFE0#32,
    fun w => .sri (fieldRd w) (fieldRa w) (fieldAmount w)⟩,
   ⟨"SRA", 0x64020000#32, 0xFC03FFF0#32,
    fun w => .sra (fieldRd w) (fieldRa w) (fieldRb w)⟩,
   ⟨"SRAI", 0x64030000#32, 0xFC03FFE0#32,
    fun w => .srai (fieldRd w) (fieldRa w) (fieldAmount w)⟩]

/-- Group 1000, jump (R64). -/
def jumpRows : List OpRow :=
  [⟨"J", 0x80030000#32, 0xFFC30000#32,
    fun w => .j (fieldImm16 w) (fieldJumpShift w)⟩,
   ⟨"JR", 0x84020000#32, 0xFFC3FFFF#32,
    fun w => .jr (fieldRa w)⟩,
   ⟨"JL", 0x88030000#32, 0xFC030000#32,
    fun w => .jl (fieldRd w) (fieldImm16 w) (fieldJumpShift w)⟩,
   ⟨"JLR", 0x8C030000#32, 0xFC030000#32,
    fun w => .jlr (fieldRd w) (fieldRa w) (fieldImm16 w)⟩]

/-- Group 1001, branch (R64). -/
def branchRows : List OpRow :=
  [⟨"BEQ", 0x90030000#32, 0xFFFF0000#32,
    fun w => .beq (fieldImm16 w)⟩,
   ⟨"BLT", 0x94030000#32, 0xFFFF0000#32,
    fun w => .blt (fieldImm16 w)⟩,
   ⟨"BGE", 0x98030000#32, 0xFFFF0000#32,
    fun w => .bge (fieldImm16 w)⟩,
   ⟨"BNE", 0x9C030000#32, 0xFFFF0000#32,
    fun w => .bne (fieldImm16 w)⟩]


/-- The 37 rows the source encodes (R64); NOP and HALT are parameters of the machine (R66). -/
def opcodeTable : List OpRow :=
  moveRows ++ loadRows ++ storeRows ++ arithmeticRows ++ logicRows ++ shiftRows ++ jumpRows ++ branchRows

/-- The 39 rows of a machine: NOP and HALT match their whole word, mask 0xFFFFFFFF (R66). -/
def Config.rows (c : Config) : List OpRow :=
  opcodeTable ++
    [⟨"NOP", c.encNop, 0xFFFFFFFF#32, fun _ => .nop⟩, ⟨"HALT", c.encHalt, 0xFFFFFFFF#32, fun _ => .halt⟩]

/-- `ENC_NOP` and `ENC_HALT` are "two distinct 32-bit words ... neither matching any row of rule R64" (R66). -/
def Config.wf (c : Config) : Bool :=
  c.encNop != c.encHalt && opcodeTable.all (fun r => !r.fits c.encNop) && opcodeTable.all (fun r => !r.fits c.encHalt)

/-! ## Decoding -/

/-- Why bits are no instruction. Raised by the decoder alone; the step turns both reasons about a word into the fault
IllegalInstruction (R78). -/
inductive Reject where
  /-- Fewer than the four bytes of a word are left (R50); a fetch always has four. -/
  | truncated
  /-- The opcode and ext are those of a row of R64, but a reserved bit is set (R77). -/
  | reservedBitsSet (w : Word)
  /-- No row of R64 has the word's opcode and ext, and it is neither `ENC_NOP` nor `ENC_HALT` (R78). -/
  | unassigned (w : Word)
  deriving DecidableEq, Repr

/-- The reason for a word that no row matches: every row fixes opcode [31:26] and ext [17:16] (R51). -/
def rejectOf (w : Word) : Reject :=
  if opcodeTable.any (fun r => w &&& 0xFC030000#32 == r.pattern &&& 0xFC030000#32) then .reservedBitsSet w
  else .unassigned w

/-- R78: the instruction of the row the word matches, with its fields cut out of the word. -/
def decode (c : Config) (w : Word) : Except Reject Instr :=
  match c.rows.find? (·.fits w) with
  | some r => .ok (r.build w)
  | none => .error (rejectOf w)

/-- The word whose bytes, from the lowest address up, are the arguments: big endian (R32, R35). -/
def wordOfBytes (b0 b1 b2 b3 : Byte) : Word := b0 ++ b1 ++ b2 ++ b3

/-- The bytes of a word from the lowest address up: big endian (R32, R34). -/
def bytesOfWord (w : Word) : List Byte :=
  [w.extractLsb' 24 8, w.extractLsb' 16 8, w.extractLsb' 8 8, w.extractLsb' 0 8]

/-- Decode the instruction at the head of a byte sequence; every instruction is exactly four bytes (R50). -/
def decodeBytes (c : Config) : List Byte → Except Reject (Instr × List Byte)
  | b0 :: b1 :: b2 :: b3 :: rest =>
    match decode c (wordOfBytes b0 b1 b2 b3) with
    | .ok i => .ok (i, rest)
    | .error e => .error e
  | _ => .error .truncated

/-- What the decoder reads, under the spec's default parameters, from an instruction whose `nbits` bits are `w` and
whose further bits are zero, laid out in memory as the hardware stores it. -/
def decodeTableWord (nbits w : Nat) : Option Instr :=
  match decodeBytes .defaults (bytesOfWord (BitVec.ofNat 32 (w % 2 ^ nbits))) with
  | .ok (i, _) => some i
  | .error _ => none

/-! ## Encoding: one function per format, fields from bit 31 down -/

/-- Format RRR (R52). -/
def encodeRRR (opcode : BitVec 6) (ext : BitVec 2) (rd ra rb : RegIdx) : Word :=
  opcode ++ regBits rd ++ regBits ra ++ ext ++ 0#12 ++ regBits rb

/-- Format RRI (R53), which JLR shares (R62). -/
def encodeRRI (opcode : BitVec 6) (ext : BitVec 2) (rd ra : RegIdx) (imm : BitVec 16) : Word :=
  opcode ++ regBits rd ++ regBits ra ++ ext ++ imm

/-- Format RR_i (R54). -/
def encodeRRi (opcode : BitVec 6) (ext : BitVec 2) (rd ra : RegIdx) (amount : Nat) : Word :=
  opcode ++ regBits rd ++ regBits ra ++ ext ++ 0#11 ++ BitVec.ofNat 5 amount

/-- Format R_R (R55). -/
def encodeR_R (opcode : BitVec 6) (ext : BitVec 2) (rd rb : RegIdx) : Word :=
  opcode ++ regBits rd ++ 0#4 ++ ext ++ 0#12 ++ regBits rb

/-- Format R_I (R56). -/
def encodeR_I (opcode : BitVec 6) (ext : BitVec 2) (rd : RegIdx) (imm : BitVec 16) : Word :=
  opcode ++ regBits rd ++ 0#4 ++ ext ++ imm

/-- Format RRSI (R57). -/
def encodeRRSI (opcode : BitVec 6) (ext : BitVec 2) (rv ra : RegIdx) (imm : BitVec 12) (shift : Nat) : Word :=
  opcode ++ regBits rv ++ regBits ra ++ ext ++ BitVec.ofNat 4 shift ++ imm

/-- Format __I (R58). -/
def encodeBranch (opcode : BitVec 6) (ext : BitVec 2) (imm : BitVec 16) : Word :=
  opcode ++ 0#4 ++ 0#4 ++ ext ++ imm

/-- Format J (R59). -/
def encodeJ (imm : BitVec 16) (shift : Nat) : Word :=
  0b100000#6 ++ 0#4 ++ BitVec.ofNat 4 shift ++ 0b11#2 ++ imm

/-- Format JR (R60). -/
def encodeJR (ra : RegIdx) : Word :=
  0b100001#6 ++ 0#4 ++ regBits ra ++ 0b10#2 ++ 0#16

/-- Format JL (R61). -/
def encodeJL (rd : RegIdx) (imm : BitVec 16) (shift : Nat) : Word :=
  0b100010#6 ++ regBits rd ++ BitVec.ofNat 4 shift ++ 0b11#2 ++ imm

/-- The word of an instruction: its format, with the opcode and ext of the opcode map (R64), zero in every reserved
bit (R77); NOP and HALT are the machine's own words (R66). -/
def encode (c : Config) : Instr → Word
  | .movil rd imm => encodeR_I 0b000101#6 0b01#2 rd imm
  | .movih rd imm => encodeR_I 0b000110#6 0b01#2 rd imm
  | .mov rd rb => encodeR_R 0b000111#6 0b00#2 rd rb
  | .ldbu rv ra imm shift => encodeRRSI 0b001000#6 0b01#2 rv ra imm shift
  | .ldb rv ra imm shift => encodeRRSI 0b001000#6 0b11#2 rv ra imm shift
  | .ldhwu rv ra imm shift => encodeRRSI 0b001001#6 0b01#2 rv ra imm shift
  | .ldhw rv ra imm shift => encodeRRSI 0b001001#6 0b11#2 rv ra imm shift
  | .ldw rv ra imm shift => encodeRRSI 0b001011#6 0b11#2 rv ra imm shift
  | .stb rv ra imm shift => encodeRRSI 0b001100#6 0b01#2 rv ra imm shift
  | .sthw rv ra imm shift => encodeRRSI 0b001101#6 0b01#2 rv ra imm shift
  | .stw rv ra imm shift => encodeRRSI 0b001111#6 0b01#2 rv ra imm shift
  | .addu rd ra rb => encodeRRR 0b010000#6 0b00#2 rd ra rb
  | .add rd ra rb => encodeRRR 0b010000#6 0b10#2 rd ra rb
  | .addi rd ra imm => encodeRRI 0b010000#6 0b11#2 rd ra imm
  | .subu rd ra rb => encodeRRR 0b010001#6 0b00#2 rd ra rb
  | .sub rd ra rb => encodeRRR 0b010001#6 0b10#2 rd ra rb
  | .subi rd ra imm => encodeRRI 0b010001#6 0b11#2 rd ra imm
  | .and rd ra rb => encodeRRR 0b010100#6 0b00#2 rd ra rb
  | .andi rd ra imm => encodeRRI 0b010100#6 0b01#2 rd ra imm
  | .or rd ra rb => encodeRRR 0b010101#6 0b00#2 rd ra rb
  | .ori rd ra imm => encodeRRI 0b010101#6 0b01#2 rd ra imm
  | .xor rd ra rb => encodeRRR 0b010110#6 0b00#2 rd ra rb
  | .xori rd ra imm => encodeRRI 0b010110#6 0b01#2 rd ra imm
  | .sl rd ra rb => encodeRRR 0b011000#6 0b00#2 rd ra rb
  | .sli rd ra amount => encodeRRi 0b011000#6 0b01#2 rd ra amount
  | .sr rd ra rb => encodeRRR 0b011001#6 0b00#2 rd ra rb
  | .sri rd ra amount => encodeRRi 0b011001#6 0b01#2 rd ra amount
  | .sra rd ra rb => encodeRRR 0b011001#6 0b10#2 rd ra rb
  | .srai rd ra amount => encodeRRi 0b011001#6 0b11#2 rd ra amount
  | .j imm shift => encodeJ imm shift
  | .jr ra => encodeJR ra
  | .jl rd imm shift => encodeJL rd imm shift
  | .jlr rd ra imm => encodeRRI 0b100011#6 0b11#2 rd ra imm
  | .beq imm => encodeBranch 0b100100#6 0b11#2 imm
  | .blt imm => encodeBranch 0b100101#6 0b11#2 imm
  | .bge imm => encodeBranch 0b100110#6 0b11#2 imm
  | .bne imm => encodeBranch 0b100111#6 0b11#2 imm
  | .nop => c.encNop
  | .halt => c.encHalt

end Sys2Proof
end

