-- ==== Sys2Proof/Machine/Ops.lean ====
section
/-! DEFINITION. The named operations over registers, memory and the pc that every meaning is written with.
A meaning computes all its values from the state before the instruction and then writes them (R6). There is no trap
entry and no trap return to share (R170, R175): `raise` is the model-level stop of R171. -/

namespace Sys2Proof.Machine

/-- What an instruction or a step answers. -/
abbrev Result := Host.Outcome State Fault Refusal

/-- `raise <Fault>(info)` of 00_scope.md section 6.1: the step ends in the fault and no next state exists, so the
instruction changes nothing (R172). -/
def raise (f : Fault) : Result := .fault f

/-! ## Registers, flags, pc, halted latch -/

/-- Read `x[r]`. No register is hardwired, banked or aliased (R12). -/
def State.readReg (s : State) (r : RegIdx) : Word := s.regs.get r

/-- `x[r] <- v` (R12). -/
def State.writeReg (s : State) (r : RegIdx) (v : Word) : State := { s with regs := s.regs.set r.val v r.isLt }

/-- Write the three flags together (R19). -/
def State.setFlags (s : State) (f : Flags) : State := { s with flags := f }

/-- `pc <- target`, with no check of the target (R17, R150). -/
def State.setPc (s : State) (target : Word) : State := { s with pc := target }

/-- The address of the next sequential instruction, modulo 2^32 (R16, R17). -/
def State.nextPc (s : State) : Word := s.pc + 4#32

/-- `pc <- pc + 4` (R16). -/
def State.advance (s : State) : State := s.setPc s.nextPc

/-- `halted <- 1` (R25). -/
def State.halt (s : State) : State := { s with halted := true }

/-- Replace the contents of memory. -/
def State.setMem (s : State) (m : Memory) : State := { s with mem := m }

/-! ## Memory as a list of cells -/

/-- The canonical form: addresses strictly rising, each a 32-bit address. An unlisted address has no value, so no entry
can equal one. -/
abbrev Memory.wf (m : Memory) : Prop :=
  m.Pairwise (fun p q => p.1 < q.1) ∧ ∀ p ∈ m, p.1 < 4294967296

/-- The byte listed at an address, if there is one. -/
def Memory.get? : Memory → Nat → Option Byte
  | [], _ => none
  | (k, v) :: m, a => if a = k then some v else Memory.get? m a

/-- List the byte `v` at the address `a`, in the place of what was listed there. -/
def Memory.put : Memory → Nat → Byte → Memory
  | [], a, v => [(a, v)]
  | (k, w) :: m, a, v =>
    if a < k then (a, v) :: (k, w) :: m
    else if a = k then (a, v) :: m
    else (k, w) :: Memory.put m a v

/-! ## Reading and writing bytes -/

/-- The byte of memory at an address: the byte loaded or stored there, else the free value of this power-up (R39,
U11; log 6). -/
def State.byteAt (s : State) (a : Word) : Byte :=
  (s.mem.get? a.toNat).getD (Config.unwrittenByte s.powerUp a.toNat)

/-- Store consecutive bytes from an address up; addresses wrap modulo 2^32 (R30). -/
def State.putBytes (s : State) (a : Word) : List Byte → State
  | [] => s
  | b :: bs => State.putBytes (s.setMem (s.mem.put a.toNat b)) (a + 1#32) bs

/-! ## Accesses of 1, 2 and 4 bytes -/

/-- The width of a memory access (R38). -/
inductive Width where
  | byte
  | half
  | word
  deriving DecidableEq, Repr

/-- The number of bytes of an access (R4, R38). -/
def Width.bytes : Width → Nat
  | .byte => 1
  | .half => 2
  | .word => 4

/-- The address is a multiple of the access size (R36). -/
def aligned (a : Word) (w : Width) : Bool := a.toNat % w.bytes == 0

/-- The address lies in the region. -/
def Region.holds (r : Region) (a : Word) : Bool := r.base ≤ a.toNat && a.toNat < r.base + r.size

/-- The address is in `MEM_MAP` (R40). -/
def mapped (c : Config) (a : Word) : Bool := c.memMap.any (fun r => Region.holds r a)

/-- Every byte of the access is in `MEM_MAP` (R40). -/
def mappedAccess (c : Config) (a : Word) (w : Width) : Bool :=
  (List.range w.bytes).all fun k => mapped c (a + BitVec.ofNat 32 k)

/-- The checks of `MemRead` and `MemWrite`, in order: alignment (R36), then `MEM_MAP` (R40). -/
def checkAccess (s : State) (a : Word) (w : Width) : Except Fault Unit :=
  if aligned a w then
    if mappedAccess s.config a w then .ok () else .error (.accessFault a)
  else .error (.misalignedAccess a)

/-- `MemRead(a, 1)` (R33). -/
def memRead8 (s : State) (a : Word) : Except Fault Byte :=
  match checkAccess s a .byte with
  | .ok _ => .ok (s.byteAt a)
  | .error f => .error f

/-- `MemRead(a, 2)`, big endian (R33). -/
def memRead16 (s : State) (a : Word) : Except Fault Half :=
  match checkAccess s a .half with
  | .ok _ => .ok (s.byteAt a ++ s.byteAt (a + 1#32))
  | .error f => .error f

/-- `MemRead(a, 4)`, big endian (R33). -/
def memRead32 (s : State) (a : Word) : Except Fault Word :=
  match checkAccess s a .word with
  | .ok _ => .ok (wordOfBytes (s.byteAt a) (s.byteAt (a + 1#32)) (s.byteAt (a + 2#32)) (s.byteAt (a + 3#32)))
  | .error f => .error f

/-- The bytes that `MemWrite` of a width stores of a register value, from the lowest address up: the low 8, 16 or 32
bits, big endian (R34). -/
def storedBytes (v : Word) : Width → List Byte
  | .byte => [v.extractLsb' 0 8]
  | .half => [v.extractLsb' 8 8, v.extractLsb' 0 8]
  | .word => bytesOfWord v

/-- `MemWrite(a, n, v)` of the low 8n bits of `v`; on a fault no byte is written (R34). -/
def memWrite (s : State) (a : Word) (w : Width) (v : Word) : Except Fault State :=
  match checkAccess s a w with
  | .ok _ => .ok (s.putBytes a (storedBytes v w))
  | .error f => .error f

/-- Fetch the instruction word: the pc must be a multiple of 4 (R37), then `MemRead(pc, 4)` (R35). -/
def fetch (s : State) : Except Fault Word :=
  if aligned s.pc .word then memRead32 s s.pc else .error (.misalignedFetch s.pc)

/-! ## How an instruction ends -/

/-- `x[rd] <- v` and on to the next instruction (R16). -/
def endWithReg (s : State) (rd : RegIdx) (v : Word) : Result := .next (s.writeReg rd v).advance

/-- `x[rd] <- v`, the three flags written, and on to the next instruction (R16, R19). -/
def endWithRegFlags (s : State) (rd : RegIdx) (v : Word) (f : Flags) : Result :=
  .next ((s.writeReg rd v).setFlags f).advance

/-- A load: on a fault no register is written and the pc is not advanced (R139). -/
def endLoad (s : State) (rv : RegIdx) : Except Fault Word → Result
  | .ok v => endWithReg s rv v
  | .error f => raise f

/-- A store: on a fault no byte is written and the pc is not advanced (R139). -/
def endStore : Except Fault State → Result
  | .ok t => .next t.advance
  | .error f => raise f

/-- A jump: the next instruction is the one at the target (R16, R150). -/
def endJump (s : State) (target : Word) : Result := .next (s.setPc target)

/-- A conditional branch: to the target if taken, else on to the next instruction (R16, R150). -/
def endBranch (s : State) (taken : Bool) (target : Word) : Result :=
  endJump s (if taken then target else s.nextPc)

/-- A jump that links: `x[rd]` receives the address of the instruction after the jump (R157, R158). -/
def endLink (s : State) (rd : RegIdx) (target : Word) : Result := endJump (s.writeReg rd s.nextPc) target

end Sys2Proof.Machine
end

