-- ==== Sys2Proof/Machine/Params.lean ====
section
/-! DEFINITION. The decided parameters of 00_scope.md section 5 that are plain values, each under the spec's name, so
that a theorem shows which it used (log 10, log 13, log 15). The other decided parameters are the bodies of one named
operation each: `ZERO_REG` (none) of `State.readReg` and `State.writeReg`, `FLAGS_MODEL` of Flags.lean,
`MISALIGNED_DATA` of `checkAccess`, `MISALIGNED_PC` of `fetch`, `RESERVED_NONZERO` and `LDW_EXT01_ALSO` of the opcode
table in Decode.lean. -/

namespace Sys2Proof.Machine

/-- How an immediate becomes 32 bits. -/
inductive ImmExt where
  | sign
  | zero
  deriving DecidableEq, Repr

/-- `sext_N` or `zext_N` of 00_scope.md section 6.1. -/
def ImmExt.extend {n : Nat} (e : ImmExt) (imm : BitVec n) : Word :=
  match e with
  | .sign => imm.signExtend 32
  | .zero => imm.zeroExtend 32

/-- `ARITH_IMM_EXT`: ADDI, SUBI (R70, D10). -/
def arithImmExt : ImmExt := .sign

/-- `LOGIC_IMM_EXT`: ANDI, ORI, XORI (R71, D11). -/
def logicImmExt : ImmExt := .sign

/-- `MEM_IMM_EXT`: loads and stores (R74, D14). -/
def memImmExt : ImmExt := .sign

/-- `BRANCH_IMM_EXT`: branches, J, JL, JLR (R75, R76, D16). -/
def branchImmExt : ImmExt := .sign

/-- `SHIFT_AMOUNT_BITS`: how many low bits of x[Rb] SL, SR, SRA use (R120, D12). -/
def shiftAmountBits : Nat := 5

/-- What "PC" denotes in a relative target. -/
inductive PcBase where
  | own
  | next
  deriving DecidableEq, Repr

/-- `PC_BASE`: the branch's or jump's own address (R15, D4). -/
def pcBase : PcBase := .own

end Sys2Proof.Machine
end

