-- ==== Sys2Proof/Machine/Operands.lean ====
section
/-! DEFINITION. Every operand form: what an immediate or a register contributes, the effective address, the relative
target (30_encoding.md R70 to R76, 42_shift.md R120, 43_memory_ops.md R130). -/

namespace Sys2Proof.Machine

/-- ADDI, SUBI: `sext_16(Imm)` (R70). -/
def arithImm (imm : BitVec 16) : Word := arithImmExt.extend imm

/-- ANDI, ORI, XORI: `sext_16(Imm)` (R71). -/
def logicImm (imm : BitVec 16) : Word := logicImmExt.extend imm

/-- SL, SR, SRA: the low five bits of the second source register, 0 to 31; higher bits are ignored (R120). -/
def regShiftAmount (v : Word) : Nat := v.toNat % 2 ^ shiftAmountBits

/-- Loads and stores: `sext_12(Imm) << shift`, bits past bit 31 dropped (R74). -/
def displacement (imm : BitVec 12) (shift : Nat) : Word := memImmExt.extend imm <<< shift

/-- The effective address of every load and store, base register plus scaled immediate modulo 2^32 (R130). -/
def State.ea (s : State) (ra : RegIdx) (imm : BitVec 12) (shift : Nat) : Word := s.readReg ra + displacement imm shift

/-- BEQ, BNE, BGE, BLT and JLR: `sext_16(Imm) << 2` (R75, R76). -/
def wordOffset (imm : BitVec 16) : Word := branchImmExt.extend imm <<< 2

/-- J, JL: `(sext_16(Imm) << shift) << 2`, bits past bit 31 dropped (R76). -/
def jumpOffset (imm : BitVec 16) (shift : Nat) : Word := (branchImmExt.extend imm <<< shift) <<< 2

/-- The address that "PC" denotes in a relative target: the instruction's own (R15). -/
def State.relativeBase (s : State) : Word :=
  match pcBase with
  | .own => s.pc
  | .next => s.nextPc

/-- `pc + offset`, modulo 2^32 (R17). -/
def State.relative (s : State) (offset : Word) : Word := s.relativeBase + offset

/-- MOVIL: bits [15:0] replaced, bits [31:16] kept (R146). -/
def withLowHalf (old : Word) (imm : BitVec 16) : Word := old.extractLsb' 16 16 ++ imm

/-- MOVIH: bits [31:16] replaced, bits [15:0] kept (R147). -/
def withHighHalf (old : Word) (imm : BitVec 16) : Word := imm ++ old.extractLsb' 0 16

end Sys2Proof.Machine
end

