-- ==== Sys2Proof/Machine/Arithmetic.lean ====
section
/-! DEFINITION. Arithmetic instructions (40_arithmetic.md): 32-bit sums and differences modulo 2^32 with their flags. -/

namespace Sys2Proof.Machine

/-- ADD (R101). -/
def execAdd (rd ra rb : RegIdx) (s : State) : Result :=
  endWithRegFlags s rd (s.readReg ra + s.readReg rb) (signedAddFlags (s.readReg ra) (s.readReg rb))

/-- ADDU (R102). -/
def execAddu (rd ra rb : RegIdx) (s : State) : Result :=
  endWithRegFlags s rd (s.readReg ra + s.readReg rb) (unsignedAddFlags (s.readReg ra) (s.readReg rb))

/-- ADDI (R103). -/
def execAddi (rd ra : RegIdx) (imm : BitVec 16) (s : State) : Result :=
  endWithRegFlags s rd (s.readReg ra + arithImm imm) (signedAddFlags (s.readReg ra) (arithImm imm))

/-- SUB (R104). -/
def execSub (rd ra rb : RegIdx) (s : State) : Result :=
  endWithRegFlags s rd (s.readReg ra - s.readReg rb) (signedSubFlags (s.readReg ra) (s.readReg rb))

/-- SUBU (R105). -/
def execSubu (rd ra rb : RegIdx) (s : State) : Result :=
  endWithRegFlags s rd (s.readReg ra - s.readReg rb) (unsignedSubFlags (s.readReg ra) (s.readReg rb))

/-- SUBI (R106). -/
def execSubi (rd ra : RegIdx) (imm : BitVec 16) (s : State) : Result :=
  endWithRegFlags s rd (s.readReg ra - arithImm imm) (signedSubFlags (s.readReg ra) (arithImm imm))

end Sys2Proof.Machine
end

