-- ==== Sys2Proof/Machine/BranchJump.lean ====
section
/-! DEFINITION. Branches and jumps (45_branch_jump.md): effective at once, no delay slot, no check of the target (R150). -/

namespace Sys2Proof.Machine

/-- BEQ (R151). -/
def execBeq (imm : BitVec 16) (s : State) : Result := endBranch s s.flags.equal (s.relative (wordOffset imm))

/-- BNE (R152). -/
def execBne (imm : BitVec 16) (s : State) : Result := endBranch s s.flags.notEqual (s.relative (wordOffset imm))

/-- BGE (R153). -/
def execBge (imm : BitVec 16) (s : State) : Result := endBranch s s.flags.greaterOrEqual (s.relative (wordOffset imm))

/-- BLT (R154). -/
def execBlt (imm : BitVec 16) (s : State) : Result := endBranch s s.flags.lessThan (s.relative (wordOffset imm))

/-- J (R155). -/
def execJ (imm : BitVec 16) (shift : Nat) (s : State) : Result := endJump s (s.relative (jumpOffset imm shift))

/-- JR: PC-relative, the register's value is a byte displacement and is not scaled (R156). -/
def execJr (ra : RegIdx) (s : State) : Result := endJump s (s.relative (s.readReg ra))

/-- JL (R157). -/
def execJl (rd : RegIdx) (imm : BitVec 16) (shift : Nat) (s : State) : Result :=
  endLink s rd (s.relative (jumpOffset imm shift))

/-- JLR: absolute, the old x[Ra] plus the offset (R158). -/
def execJlr (rd ra : RegIdx) (imm : BitVec 16) (s : State) : Result :=
  endLink s rd (s.readReg ra + wordOffset imm)

end Sys2Proof.Machine
end

