-- ==== Sys2Proof/Machine/LoadStore.lean ====
section
/-! DEFINITION. Loads and stores (43_memory_ops.md): base register plus scaled immediate (R130), no flag written (R139). -/

namespace Sys2Proof.Machine

/-- LDW (R131). -/
def execLdw (rv ra : RegIdx) (imm : BitVec 12) (shift : Nat) (s : State) : Result :=
  endLoad s rv (memRead32 s (s.ea ra imm shift))

/-- LDHW (R132). -/
def execLdhw (rv ra : RegIdx) (imm : BitVec 12) (shift : Nat) (s : State) : Result :=
  endLoad s rv ((memRead16 s (s.ea ra imm shift)).map (·.signExtend 32))

/-- LDHWU (R133). -/
def execLdhwu (rv ra : RegIdx) (imm : BitVec 12) (shift : Nat) (s : State) : Result :=
  endLoad s rv ((memRead16 s (s.ea ra imm shift)).map (·.zeroExtend 32))

/-- LDB (R134). -/
def execLdb (rv ra : RegIdx) (imm : BitVec 12) (shift : Nat) (s : State) : Result :=
  endLoad s rv ((memRead8 s (s.ea ra imm shift)).map (·.signExtend 32))

/-- LDBU (R135). -/
def execLdbu (rv ra : RegIdx) (imm : BitVec 12) (shift : Nat) (s : State) : Result :=
  endLoad s rv ((memRead8 s (s.ea ra imm shift)).map (·.zeroExtend 32))

/-- STW (R136). -/
def execStw (rv ra : RegIdx) (imm : BitVec 12) (shift : Nat) (s : State) : Result :=
  endStore (memWrite s (s.ea ra imm shift) .word (s.readReg rv))

/-- STHW (R137). -/
def execSthw (rv ra : RegIdx) (imm : BitVec 12) (shift : Nat) (s : State) : Result :=
  endStore (memWrite s (s.ea ra imm shift) .half (s.readReg rv))

/-- STB (R138). -/
def execStb (rv ra : RegIdx) (imm : BitVec 12) (shift : Nat) (s : State) : Result :=
  endStore (memWrite s (s.ea ra imm shift) .byte (s.readReg rv))

end Sys2Proof.Machine
end

