-- ==== Sys2Proof/Machine/Logic.lean ====
section
/-! DEFINITION. Logic instructions (41_logic.md): bit by bit, no flag written (R110). NOT is XORI with all ones (R117). -/

namespace Sys2Proof.Machine

/-- AND (R111). -/
def execAnd (rd ra rb : RegIdx) (s : State) : Result :=
  endWithReg s rd (s.readReg ra &&& s.readReg rb)

/-- ANDI (R112). -/
def execAndi (rd ra : RegIdx) (imm : BitVec 16) (s : State) : Result :=
  endWithReg s rd (s.readReg ra &&& logicImm imm)

/-- OR (R113). -/
def execOr (rd ra rb : RegIdx) (s : State) : Result :=
  endWithReg s rd (s.readReg ra ||| s.readReg rb)

/-- ORI (R114). -/
def execOri (rd ra : RegIdx) (imm : BitVec 16) (s : State) : Result :=
  endWithReg s rd (s.readReg ra ||| logicImm imm)

/-- XOR (R115). -/
def execXor (rd ra rb : RegIdx) (s : State) : Result :=
  endWithReg s rd (s.readReg ra ^^^ s.readReg rb)

/-- XORI (R116). -/
def execXori (rd ra : RegIdx) (imm : BitVec 16) (s : State) : Result :=
  endWithReg s rd (s.readReg ra ^^^ logicImm imm)

end Sys2Proof.Machine
end

