-- ==== Sys2Proof/Machine/Misc.lean ====
section
/-! DEFINITION. NOP and HALT (46_misc.md). -/

namespace Sys2Proof.Machine

/-- NOP: only the pc advances (R165). -/
def execNop (s : State) : Result := .next s.advance

/-- HALT: the halted latch is set and the pc keeps the address of the HALT (R166). -/
def execHalt (s : State) : Result := .next s.halt

end Sys2Proof.Machine
end

