-- ==== Sys2Proof/Machine/Move.lean ====
section
/-! DEFINITION. Move instructions (44_move.md): no flag written, no memory accessed. -/

namespace Sys2Proof.Machine

/-- MOV (R145). -/
def execMov (rd rb : RegIdx) (s : State) : Result := endWithReg s rd (s.readReg rb)

/-- MOVIL: the high half of Rd is kept (R146). -/
def execMovil (rd : RegIdx) (imm : BitVec 16) (s : State) : Result := endWithReg s rd (withLowHalf (s.readReg rd) imm)

/-- MOVIH: the low half of Rd is kept (R147). -/
def execMovih (rd : RegIdx) (imm : BitVec 16) (s : State) : Result := endWithReg s rd (withHighHalf (s.readReg rd) imm)

end Sys2Proof.Machine
end

