-- ==== Sys2Proof/Machine/Shift.lean ====
section
/-! DEFINITION. Shift instructions (42_shift.md): no flag written (R120); SR is logical, SRA arithmetic (R127). -/

namespace Sys2Proof.Machine

/-- SL: zeros enter at bit 0 (R121). -/
def execSl (rd ra rb : RegIdx) (s : State) : Result :=
  endWithReg s rd (s.readReg ra <<< regShiftAmount (s.readReg rb))

/-- SLI: zeros enter at bit 0 (R122). -/
def execSli (rd ra : RegIdx) (amount : Nat) (s : State) : Result :=
  endWithReg s rd (s.readReg ra <<< amount)

/-- SR: zeros enter at bit 31 (R123). -/
def execSr (rd ra rb : RegIdx) (s : State) : Result :=
  endWithReg s rd (s.readReg ra >>> regShiftAmount (s.readReg rb))

/-- SRI: zeros enter at bit 31 (R124). -/
def execSri (rd ra : RegIdx) (amount : Nat) (s : State) : Result :=
  endWithReg s rd (s.readReg ra >>> amount)

/-- SRA: copies of bit 31 enter at bit 31 (R125). -/
def execSra (rd ra rb : RegIdx) (s : State) : Result :=
  endWithReg s rd ((s.readReg ra).sshiftRight (regShiftAmount (s.readReg rb)))

/-- SRAI: copies of bit 31 enter at bit 31 (R126). -/
def execSrai (rd ra : RegIdx) (amount : Nat) (s : State) : Result :=
  endWithReg s rd ((s.readReg ra).sshiftRight amount)

end Sys2Proof.Machine
end

