-- ==== Sys2Proof/Machine/Dispatch.lean ====
section
/-! DEFINITION. Every instruction's meaning, one arm per constructor of Instr, in the order of opcode_table.json. -/

namespace Sys2Proof.Machine

def exec (i : Instr) (s : State) : Host.Outcome State Fault Refusal :=
  match i with
  | .movil rd imm => Sys2Proof.Machine.execMovil rd imm s
  | .movih rd imm => Sys2Proof.Machine.execMovih rd imm s
  | .mov rd rb => Sys2Proof.Machine.execMov rd rb s
  | .ldbu rv ra imm shift => Sys2Proof.Machine.execLdbu rv ra imm shift s
  | .ldb rv ra imm shift => Sys2Proof.Machine.execLdb rv ra imm shift s
  | .ldhwu rv ra imm shift => Sys2Proof.Machine.execLdhwu rv ra imm shift s
  | .ldhw rv ra imm shift => Sys2Proof.Machine.execLdhw rv ra imm shift s
  | .ldw rv ra imm shift => Sys2Proof.Machine.execLdw rv ra imm shift s
  | .stb rv ra imm shift => Sys2Proof.Machine.execStb rv ra imm shift s
  | .sthw rv ra imm shift => Sys2Proof.Machine.execSthw rv ra imm shift s
  | .stw rv ra imm shift => Sys2Proof.Machine.execStw rv ra imm shift s
  | .addu rd ra rb => Sys2Proof.Machine.execAddu rd ra rb s
  | .add rd ra rb => Sys2Proof.Machine.execAdd rd ra rb s
  | .addi rd ra imm => Sys2Proof.Machine.execAddi rd ra imm s
  | .subu rd ra rb => Sys2Proof.Machine.execSubu rd ra rb s
  | .sub rd ra rb => Sys2Proof.Machine.execSub rd ra rb s
  | .subi rd ra imm => Sys2Proof.Machine.execSubi rd ra imm s
  | .and rd ra rb => Sys2Proof.Machine.execAnd rd ra rb s
  | .andi rd ra imm => Sys2Proof.Machine.execAndi rd ra imm s
  | .or rd ra rb => Sys2Proof.Machine.execOr rd ra rb s
  | .ori rd ra imm => Sys2Proof.Machine.execOri rd ra imm s
  | .xor rd ra rb => Sys2Proof.Machine.execXor rd ra rb s
  | .xori rd ra imm => Sys2Proof.Machine.execXori rd ra imm s
  | .sl rd ra rb => Sys2Proof.Machine.execSl rd ra rb s
  | .sli rd ra amount => Sys2Proof.Machine.execSli rd ra amount s
  | .sr rd ra rb => Sys2Proof.Machine.execSr rd ra rb s
  | .sri rd ra amount => Sys2Proof.Machine.execSri rd ra amount s
  | .sra rd ra rb => Sys2Proof.Machine.execSra rd ra rb s
  | .srai rd ra amount => Sys2Proof.Machine.execSrai rd ra amount s
  | .j imm shift => Sys2Proof.Machine.execJ imm shift s
  | .jr ra => Sys2Proof.Machine.execJr ra s
  | .jl rd imm shift => Sys2Proof.Machine.execJl rd imm shift s
  | .jlr rd ra imm => Sys2Proof.Machine.execJlr rd ra imm s
  | .beq imm => Sys2Proof.Machine.execBeq imm s
  | .blt imm => Sys2Proof.Machine.execBlt imm s
  | .bge imm => Sys2Proof.Machine.execBge imm s
  | .bne imm => Sys2Proof.Machine.execBne imm s
  | .nop => Sys2Proof.Machine.execNop s
  | .halt => Sys2Proof.Machine.execHalt s

end Sys2Proof.Machine
end

