-- ==== Sys2Proof/Machine/Step.lean ====
section
/-! DEFINITION. One step of the machine (10_state.md R28): fetch, decode, execute. -/

namespace Sys2Proof.Machine

/-- Decode the fetched word; a word that is no instruction ends the step in IllegalInstruction (R78). -/
def decodeAndExec (s : State) (w : Word) : Result :=
  match decode s.config w with
  | .ok i => exec i s
  | .error _ => raise (.illegalInstruction s.pc w)

/-- One step (R28, R173). A halted machine executes nothing and stays as it is (R25; log 7). -/
def step (s : State) : Host.Outcome State Fault Refusal :=
  if s.halted then .next s
  else
    match fetch s with
    | .ok w => decodeAndExec s w
    | .error f => raise f

/-- The instruction whose `nbits` bits are `w` (bit 0 the least significant bit of the word), further bits zero, loaded
big endian at the pc (R192). -/
def State.withFetchWord (s : State) (nbits w : Nat) : State :=
  s.putBytes s.pc (bytesOfWord (BitVec.ofNat 32 (w % 2 ^ nbits)))

end Sys2Proof.Machine
end

