-- ==== Sys2Proof/Machine/Assembler.lean ====
section
/-! DEFINITION. What the spec says of assembly (30_encoding.md R83 to R86, 41_logic.md R117): the pseudo-instruction
NOT, the operand order of every instruction, and how `where` becomes fields. The hardware does not depend on it. -/

namespace Sys2Proof.Machine

/-- `NOT Rd Ra` is `XORI Rd Ra #0xFFFF` (R84, R117). -/
def notPseudo (rd ra : RegIdx) : Instr := .xori rd ra 0xFFFF#16

/-- The Imm field with which a conditional branch at `here` reaches `target`, if there is one: `target - here` must be
its offset (R86). -/
def branchFields (here target : Word) : Option (BitVec 16) :=
  let imm := ((target - here).sshiftRight 2).setWidth 16
  if wordOffset imm = target - here then some imm else none

/-- The Imm and shift fields with which a J or JL at `here` reaches `target`, if there are any: the least shift that
gives the offset, so shift 0 whenever the offset fits (R86). -/
def jumpFields (here target : Word) : Option (BitVec 16 × Nat) :=
  (List.range 16).findSome? fun shift =>
    let imm := ((target - here).sshiftRight (shift + 2)).setWidth 16
    if jumpOffset imm shift = target - here then some (imm, shift) else none

/-- A register operand (R83; R13 for the names). -/
def regText (r : RegIdx) : String := "R" ++ toString r.val

/-- An immediate operand: the value of its field (R83, R86), here in decimal. -/
def immText (n : Nat) : String := "#" ++ toString n

/-- `<mnemonic> Rd Ra Rb` (R83). -/
def rrrText (mnemonic : String) (rd ra rb : RegIdx) : String :=
  mnemonic ++ " " ++ regText rd ++ " " ++ regText ra ++ " " ++ regText rb

/-- `<mnemonic> Rd Ra #Imm` (R83). -/
def rriText (mnemonic : String) (rd ra : RegIdx) (imm : Nat) : String :=
  mnemonic ++ " " ++ regText rd ++ " " ++ regText ra ++ " " ++ immText imm

/-- `<mnemonic> Rv [Ra] #Imm << shift` (R83). -/
def memText (mnemonic : String) (rv ra : RegIdx) (imm : BitVec 12) (shift : Nat) : String :=
  mnemonic ++ " " ++ regText rv ++ " [" ++ regText ra ++ "] " ++ immText imm.toNat ++ " << " ++ toString shift

/-- A `where` operand: the target's address (R83, R86), here in decimal. -/
def whereText (target : Word) : String := toString target.toNat

/-- The assembly line of an instruction that stands at the address `here`: the heading's mnemonic (R85) and the
operands in the order of R83. -/
def assemblyText (here : Word) : Instr → String
  | .movil rd imm => "MOVIL " ++ regText rd ++ " " ++ immText imm.toNat
  | .movih rd imm => "MOVIH " ++ regText rd ++ " " ++ immText imm.toNat
  | .mov rd rb => "MOV " ++ regText rd ++ " " ++ regText rb
  | .ldbu rv ra imm shift => memText "LDBU" rv ra imm shift
  | .ldb rv ra imm shift => memText "LDB" rv ra imm shift
  | .ldhwu rv ra imm shift => memText "LDHWU" rv ra imm shift
  | .ldhw rv ra imm shift => memText "LDHW" rv ra imm shift
  | .ldw rv ra imm shift => memText "LDW" rv ra imm shift
  | .stb rv ra imm shift => memText "STB" rv ra imm shift
  | .sthw rv ra imm shift => memText "STHW" rv ra imm shift
  | .stw rv ra imm shift => memText "STW" rv ra imm shift
  | .addu rd ra rb => rrrText "ADDU" rd ra rb
  | .add rd ra rb => rrrText "ADD" rd ra rb
  | .addi rd ra imm => rriText "ADDI" rd ra imm.toNat
  | .subu rd ra rb => rrrText "SUBU" rd ra rb
  | .sub rd ra rb => rrrText "SUB" rd ra rb
  | .subi rd ra imm => rriText "SUBI" rd ra imm.toNat
  | .and rd ra rb => rrrText "AND" rd ra rb
  | .andi rd ra imm => rriText "ANDI" rd ra imm.toNat
  | .or rd ra rb => rrrText "OR" rd ra rb
  | .ori rd ra imm => rriText "ORI" rd ra imm.toNat
  | .xor rd ra rb => rrrText "XOR" rd ra rb
  | .xori rd ra imm => rriText "XORI" rd ra imm.toNat
  | .sl rd ra rb => rrrText "SL" rd ra rb
  | .sli rd ra amount => rriText "SLI" rd ra amount
  | .sr rd ra rb => rrrText "SR" rd ra rb
  | .sri rd ra amount => rriText "SRI" rd ra amount
  | .sra rd ra rb => rrrText "SRA" rd ra rb
  | .srai rd ra amount => rriText "SRAI" rd ra amount
  | .j imm shift => "J " ++ whereText (here + jumpOffset imm shift)
  | .jr ra => "JR " ++ regText ra
  | .jl rd imm shift => "JL " ++ regText rd ++ " " ++ whereText (here + jumpOffset imm shift)
  | .jlr rd ra imm => rriText "JLR" rd ra imm.toNat
  | .beq imm => "BEQ " ++ whereText (here + wordOffset imm)
  | .blt imm => "BLT " ++ whereText (here + wordOffset imm)
  | .bge imm => "BGE " ++ whereText (here + wordOffset imm)
  | .bne imm => "BNE " ++ whereText (here + wordOffset imm)
  | .nop => "NOP"
  | .halt => "HALT"

end Sys2Proof.Machine
end

