-- ==== Sys2Proof/Safety.lean ====
section
/-! DEFINITION. What counts as a safe run, and the terms claims are stated in. Nothing here changes what the machine
does. -/

namespace Sys2Proof

/-! ## Kinds of instructions -/

/-- The register an instruction writes, if it writes one (R13). -/
def Instr.destination : Instr → Option RegIdx
  | .movil rd _ => some rd
  | .movih rd _ => some rd
  | .mov rd _ => some rd
  | .ldbu rv _ _ _ => some rv
  | .ldb rv _ _ _ => some rv
  | .ldhwu rv _ _ _ => some rv
  | .ldhw rv _ _ _ => some rv
  | .ldw rv _ _ _ => some rv
  | .stb _ _ _ _ => none
  | .sthw _ _ _ _ => none
  | .stw _ _ _ _ => none
  | .addu rd _ _ => some rd
  | .add rd _ _ => some rd
  | .addi rd _ _ => some rd
  | .subu rd _ _ => some rd
  | .sub rd _ _ => some rd
  | .subi rd _ _ => some rd
  | .and rd _ _ => some rd
  | .andi rd _ _ => some rd
  | .or rd _ _ => some rd
  | .ori rd _ _ => some rd
  | .xor rd _ _ => some rd
  | .xori rd _ _ => some rd
  | .sl rd _ _ => some rd
  | .sli rd _ _ => some rd
  | .sr rd _ _ => some rd
  | .sri rd _ _ => some rd
  | .sra rd _ _ => some rd
  | .srai rd _ _ => some rd
  | .j _ _ => none
  | .jr _ => none
  | .jl rd _ _ => some rd
  | .jlr rd _ _ => some rd
  | .beq _ => none
  | .blt _ => none
  | .bge _ => none
  | .bne _ => none
  | .nop => none
  | .halt => none

/-- The six instructions that write the flags (R19). -/
def Instr.writesFlags : Instr → Bool
  | .add _ _ _ | .addu _ _ _ | .addi _ _ _ | .sub _ _ _ | .subu _ _ _ | .subi _ _ _ => true
  | .movil _ _ | .movih _ _ | .mov _ _ | .ldbu _ _ _ _ | .ldb _ _ _ _ | .ldhwu _ _ _ _ | .ldhw _ _ _ _
  | .ldw _ _ _ _ | .stb _ _ _ _ | .sthw _ _ _ _ | .stw _ _ _ _ | .and _ _ _ | .andi _ _ _ | .or _ _ _
  | .ori _ _ _ | .xor _ _ _ | .xori _ _ _ | .sl _ _ _ | .sli _ _ _ | .sr _ _ _ | .sri _ _ _ | .sra _ _ _
  | .srai _ _ _ | .j _ _ | .jr _ | .jl _ _ _ | .jlr _ _ _ | .beq _ | .blt _ | .bge _ | .bne _ | .nop | .halt => false

/-- The four instructions that read the flags (R22). -/
def Instr.readsFlags : Instr → Bool
  | .beq _ | .bne _ | .bge _ | .blt _ => true
  | .movil _ _ | .movih _ _ | .mov _ _ | .ldbu _ _ _ _ | .ldb _ _ _ _ | .ldhwu _ _ _ _ | .ldhw _ _ _ _
  | .ldw _ _ _ _ | .stb _ _ _ _ | .sthw _ _ _ _ | .stw _ _ _ _ | .addu _ _ _ | .add _ _ _ | .addi _ _ _
  | .subu _ _ _ | .sub _ _ _ | .subi _ _ _ | .and _ _ _ | .andi _ _ _ | .or _ _ _ | .ori _ _ _ | .xor _ _ _
  | .xori _ _ _ | .sl _ _ _ | .sli _ _ _ | .sr _ _ _ | .sri _ _ _ | .sra _ _ _ | .srai _ _ _ | .j _ _ | .jr _
  | .jl _ _ _ | .jlr _ _ _ | .nop | .halt => false

/-- The access a load or store makes: its width, base register, Imm and shift (R38, R130). -/
def Instr.access : Instr → Option (Machine.Width × RegIdx × BitVec 12 × Nat)
  | .ldbu _ ra imm shift | .ldb _ ra imm shift | .stb _ ra imm shift => some (.byte, ra, imm, shift)
  | .ldhwu _ ra imm shift | .ldhw _ ra imm shift | .sthw _ ra imm shift => some (.half, ra, imm, shift)
  | .ldw _ ra imm shift | .stw _ ra imm shift => some (.word, ra, imm, shift)
  | .movil _ _ | .movih _ _ | .mov _ _ | .addu _ _ _ | .add _ _ _ | .addi _ _ _ | .subu _ _ _ | .sub _ _ _
  | .subi _ _ _ | .and _ _ _ | .andi _ _ _ | .or _ _ _ | .ori _ _ _ | .xor _ _ _ | .xori _ _ _ | .sl _ _ _
  | .sli _ _ _ | .sr _ _ _ | .sri _ _ _ | .sra _ _ _ | .srai _ _ _ | .j _ _ | .jr _ | .jl _ _ _ | .jlr _ _ _
  | .beq _ | .blt _ | .bge _ | .bne _ | .nop | .halt => none

/-- The three stores (R136, R137, R138). -/
def Instr.stores : Instr → Bool
  | .stb _ _ _ _ | .sthw _ _ _ _ | .stw _ _ _ _ => true
  | .movil _ _ | .movih _ _ | .mov _ _ | .ldbu _ _ _ _ | .ldb _ _ _ _ | .ldhwu _ _ _ _ | .ldhw _ _ _ _
  | .ldw _ _ _ _ | .addu _ _ _ | .add _ _ _ | .addi _ _ _ | .subu _ _ _ | .sub _ _ _ | .subi _ _ _ | .and _ _ _
  | .andi _ _ _ | .or _ _ _ | .ori _ _ _ | .xor _ _ _ | .xori _ _ _ | .sl _ _ _ | .sli _ _ _ | .sr _ _ _
  | .sri _ _ _ | .sra _ _ _ | .srai _ _ _ | .j _ _ | .jr _ | .jl _ _ _ | .jlr _ _ _ | .beq _ | .blt _ | .bge _
  | .bne _ | .nop | .halt => false

/-- The conditional branches and the jumps (45_branch_jump.md). -/
def Instr.transfersControl : Instr → Bool
  | .beq _ | .bne _ | .bge _ | .blt _ | .j _ _ | .jr _ | .jl _ _ _ | .jlr _ _ _ => true
  | .movil _ _ | .movih _ _ | .mov _ _ | .ldbu _ _ _ _ | .ldb _ _ _ _ | .ldhwu _ _ _ _ | .ldhw _ _ _ _
  | .ldw _ _ _ _ | .stb _ _ _ _ | .sthw _ _ _ _ | .stw _ _ _ _ | .addu _ _ _ | .add _ _ _ | .addi _ _ _
  | .subu _ _ _ | .sub _ _ _ | .subi _ _ _ | .and _ _ _ | .andi _ _ _ | .or _ _ _ | .ori _ _ _ | .xor _ _ _
  | .xori _ _ _ | .sl _ _ _ | .sli _ _ _ | .sr _ _ _ | .sri _ _ _ | .sra _ _ _ | .srai _ _ _ | .nop | .halt => false

/-- Before the first step the environment must have chosen `RESET_PC` a multiple of 4 inside `MEM_MAP` (R192). -/
def Config.bootable (c : Config) : Bool := Machine.aligned c.resetPc .word && Machine.mappedAccess c c.resetPc .word

end Sys2Proof

namespace Sys2Proof.Machine

/-! ## Runs: how a run goes on and how it ends -/

/-- Where a run stands. A fault stop is not the halted state, and only the halted state is a proper end (R166, R172). -/
inductive Status where
  | running
  | halted
  | faulted (f : Fault)
  | refused (r : Refusal)
  deriving DecidableEq, Repr

/-- A run: the state it is in, and where it stands. A faulted run keeps the state in which the fault was raised. -/
structure Run where
  state : State
  status : Status
  deriving DecidableEq, Repr

/-- Whether a machine in this state runs or is halted (R25). -/
def State.status (s : State) : Status := if s.halted then .halted else .running

/-- A run that starts in a state, with no fault recorded (R190). -/
def Run.start (s : State) : Run := ⟨s, s.status⟩

/-- One step of a run: a halted, faulted or refused run takes no further step (R25, R172). -/
def Run.tick (r : Run) : Run :=
  match r.status with
  | .running =>
    match step r.state with
    | .next t => ⟨t, t.status⟩
    | .fault f => ⟨r.state, .faulted f⟩
    | .refused x => ⟨r.state, .refused x⟩
  | _ => r

/-- `n` steps of a run. -/
def Run.ticks : Nat → Run → Run
  | 0, r => r
  | n + 1, r => Run.ticks n r.tick

/-- The run ends properly: it reaches the first state with `halted` = 1 (R166). -/
def EndsProperly (s : State) : Prop := ∃ n, ((Run.start s).ticks n).status = .halted

/-- A step is safe when it ends in a next state. -/
def SafeStep (s : State) : Prop := ∃ t, step s = .next t

/-- A run is safe when it never faults and is never refused. -/
def SafeRun (s : State) : Prop :=
  ∀ n, ((Run.start s).ticks n).status = .running ∨ ((Run.start s).ticks n).status = .halted

/-! ## The invariant -/

/-- Memory is in its canonical form, and every byte it lists lies in `MEM_MAP` (R40: nothing is ever stored outside). -/
def Inv (s : State) : Prop := s.mem.wf ∧ ∀ p ∈ s.mem, mapped s.config (BitVec.ofNat 32 p.1) = true

/-! ## What an instruction changes -/

/-- The instruction completes: `exec` answers a next state, of which `P` holds. -/
def Completes (i : Instr) (s : State) (P : State → Prop) : Prop := ∃ t, exec i s = .next t ∧ P t

/-- Every byte of memory reads as before. -/
def SameMemory (s t : State) : Prop := ∀ a : Word, t.byteAt a = s.byteAt a

/-- Every general register reads as before. -/
def SameRegs (s t : State) : Prop := ∀ r : RegIdx, t.readReg r = s.readReg r

/-- The halted latch, the parameters and the power-up are as before. -/
def SameMachine (s t : State) : Prop := t.halted = s.halted ∧ t.config = s.config ∧ t.powerUp = s.powerUp

/-- From `s` to `t`: `x[rd]` is `v`, the flags are `f`, the pc is `next`; every other register, every byte of memory
and all the rest are unchanged. -/
def RegResult (s t : State) (rd : RegIdx) (v : Word) (f : Flags) (next : Word) : Prop :=
  t.readReg rd = v ∧ (∀ r : RegIdx, r ≠ rd → t.readReg r = s.readReg r) ∧ t.flags = f ∧ t.pc = next ∧
    SameMemory s t ∧ SameMachine s t

/-- From `s` to `t`: the pc is `next`; every register, every flag, every byte of memory and all the rest are
unchanged. -/
def PcResult (s t : State) (next : Word) : Prop :=
  SameRegs s t ∧ t.flags = s.flags ∧ t.pc = next ∧ SameMemory s t ∧ SameMachine s t

/-- From `s` to `t`: the bytes `bs` stand at `a` and upward, every other byte of memory reads as before, the pc is
`next`; every register, every flag and all the rest are unchanged. -/
def StoreResult (s t : State) (a : Word) (bs : List Byte) (next : Word) : Prop :=
  (∀ k (h : k < bs.length), t.byteAt (a + BitVec.ofNat 32 k) = bs[k]) ∧
    (∀ b : Word, (∀ k, k < bs.length → b ≠ a + BitVec.ofNat 32 k) → t.byteAt b = s.byteAt b) ∧
    SameRegs s t ∧ t.flags = s.flags ∧ t.pc = next ∧ SameMachine s t

/-- Every word that belongs to the row decodes, on every machine, to the instruction built from its fields (R78). -/
def DecodesTo (mask pattern : Word) (build : Word → Instr) : Prop :=
  ∀ (c : Config) (w : Word), w &&& mask = pattern → decode c w = .ok (build w)

/-! ## Flags by exact integers -/

/-- The flags R20 gives an addition: zero, sign of the 32-bit sum, and whether the exact integer
`signed(a) + signed(b)` lies outside -2^31 .. 2^31-1. -/
def exactAddFlags (a b : Word) : Flags where
  z := decide (a + b = 0#32)
  n := (a + b).msb
  v := decide (a.toInt + b.toInt < -2147483648 ∨ 2147483647 < a.toInt + b.toInt)

/-- The flags R20 gives a subtraction: zero, sign of the 32-bit difference, and whether the exact integer
`signed(a) - signed(b)` lies outside -2^31 .. 2^31-1. -/
def exactSubFlags (a b : Word) : Flags where
  z := decide (a - b = 0#32)
  n := (a - b).msb
  v := decide (a.toInt - b.toInt < -2147483648 ∨ 2147483647 < a.toInt - b.toInt)

/-- Two flag settings that the four branches cannot tell apart: they agree on `F.Z` and on `F.N != F.V` (R23). -/
def FlagsAgree (f g : Flags) : Prop := f.z = g.z ∧ (f.n != f.v) = (g.n != g.v)

end Sys2Proof.Machine
end

