-- ==== Sys2Proof/Certificates/Slice0/Obligations.lean ====
section
/-! DEFINITION. Statements about the machine, for the provers. Each one's docstring says what it formalises; a statement
that says "completes" says that `exec` answers a next state for every state and operands that meet its hypotheses. -/

open Sys2Proof Sys2Proof.Machine

/-- O1, tier 1. One word of every family, taken from the spec's table of assembled words, decodes under the default
parameters to the instruction beside it there; four words of its table of illegal words decode to nothing. (Rests on
95_test_vectors.md section 2.1, 95_test_vectors.md section 2.2.) -/
def Obligations.WordsOfTheSpecDecode : Prop :=
  decodeTableWord 32 0x40C60002 = some (.add 3 1 2) ∧
  decodeTableWord 32 0x44470001 = some (.subi 1 1 1) ∧
  decodeTableWord 32 0x58C5FFFF = some (.xori 3 1 0xFFFF) ∧
  decodeTableWord 32 0x64C5001F = some (.sri 3 1 31) ∧
  decodeTableWord 32 0x18C1ABCD = some (.movih 3 0xABCD) ∧
  decodeTableWord 32 0x2CC72001 = some (.ldw 3 1 1 2) ∧
  decodeTableWord 32 0x34C50002 = some (.sthw 3 1 2 0) ∧
  decodeTableWord 32 0x9C03FFFE = some (.bne 0xFFFE) ∧
  decodeTableWord 32 0x8013FFFF = some (.j 0xFFFF 4) ∧
  decodeTableWord 32 0x8FD30002 = some (.jlr 15 4 2) ∧
  decodeTableWord 32 0x04000000 = some .halt ∧
  decodeTableWord 32 0xFFFFFFFF = none ∧
  decodeTableWord 32 0x40C60012 = none ∧
  decodeTableWord 32 0x2CC50000 = none ∧
  decodeTableWord 32 0x60C50024 = none

/-- O2, tier 2. The word of every encoded instruction, read as a number, is the number of its opcode and ext plus each
field times the power of two of its lowest bit; so every field stands where the format tables say and every reserved
bit is 0. The shift counts are those their fields can hold. (Formalises R52, R53, R54, R55, R56, R57, R58, R59, R60,
R61, R62.) -/
def Obligations.EncodedFieldsStandAtTheirBits : Prop :=
  ∀ (c : Config) (d a b : RegIdx) (imm : BitVec 16) (imm12 : BitVec 12) (amount shift : Nat),
    amount < 32 → shift < 16 →
    -- RRR: Rd [25:22], Ra [21:18], Rb [3:0] (R52)
    (encode c (.addu d a b)).toNat = 0x40000000 + d.val * 2 ^ 22 + a.val * 2 ^ 18 + b.val ∧
    (encode c (.add d a b)).toNat = 0x40020000 + d.val * 2 ^ 22 + a.val * 2 ^ 18 + b.val ∧
    (encode c (.subu d a b)).toNat = 0x44000000 + d.val * 2 ^ 22 + a.val * 2 ^ 18 + b.val ∧
    (encode c (.sub d a b)).toNat = 0x44020000 + d.val * 2 ^ 22 + a.val * 2 ^ 18 + b.val ∧
    (encode c (.and d a b)).toNat = 0x50000000 + d.val * 2 ^ 22 + a.val * 2 ^ 18 + b.val ∧
    (encode c (.or d a b)).toNat = 0x54000000 + d.val * 2 ^ 22 + a.val * 2 ^ 18 + b.val ∧
    (encode c (.xor d a b)).toNat = 0x58000000 + d.val * 2 ^ 22 + a.val * 2 ^ 18 + b.val ∧
    (encode c (.sl d a b)).toNat = 0x60000000 + d.val * 2 ^ 22 + a.val * 2 ^ 18 + b.val ∧
    (encode c (.sr d a b)).toNat = 0x64000000 + d.val * 2 ^ 22 + a.val * 2 ^ 18 + b.val ∧
    (encode c (.sra d a b)).toNat = 0x64020000 + d.val * 2 ^ 22 + a.val * 2 ^ 18 + b.val ∧
    -- RRI: Rd [25:22], Ra [21:18], Imm [15:0] (R53)
    (encode c (.addi d a imm)).toNat = 0x40030000 + d.val * 2 ^ 22 + a.val * 2 ^ 18 + imm.toNat ∧
    (encode c (.subi d a imm)).toNat = 0x44030000 + d.val * 2 ^ 22 + a.val * 2 ^ 18 + imm.toNat ∧
    (encode c (.andi d a imm)).toNat = 0x50010000 + d.val * 2 ^ 22 + a.val * 2 ^ 18 + imm.toNat ∧
    (encode c (.ori d a imm)).toNat = 0x54010000 + d.val * 2 ^ 22 + a.val * 2 ^ 18 + imm.toNat ∧
    (encode c (.xori d a imm)).toNat = 0x58010000 + d.val * 2 ^ 22 + a.val * 2 ^ 18 + imm.toNat ∧
    -- RR_i: Rd [25:22], Ra [21:18], Imm [4:0] (R54)
    (encode c (.sli d a amount)).toNat = 0x60010000 + d.val * 2 ^ 22 + a.val * 2 ^ 18 + amount ∧
    (encode c (.sri d a amount)).toNat = 0x64010000 + d.val * 2 ^ 22 + a.val * 2 ^ 18 + amount ∧
    (encode c (.srai d a amount)).toNat = 0x64030000 + d.val * 2 ^ 22 + a.val * 2 ^ 18 + amount ∧
    -- R_R: Rd [25:22], Rb [3:0] (R55); R_I: Rd [25:22], Imm [15:0] (R56)
    (encode c (.mov d b)).toNat = 0x1C000000 + d.val * 2 ^ 22 + b.val ∧
    (encode c (.movil d imm)).toNat = 0x14010000 + d.val * 2 ^ 22 + imm.toNat ∧
    (encode c (.movih d imm)).toNat = 0x18010000 + d.val * 2 ^ 22 + imm.toNat ∧
    -- RRSI: Rv [25:22], Ra [21:18], shift [15:12], Imm [11:0] (R57)
    (encode c (.ldw d a imm12 shift)).toNat =
      0x2C030000 + d.val * 2 ^ 22 + a.val * 2 ^ 18 + shift * 2 ^ 12 + imm12.toNat ∧
    (encode c (.ldhw d a imm12 shift)).toNat =
      0x24030000 + d.val * 2 ^ 22 + a.val * 2 ^ 18 + shift * 2 ^ 12 + imm12.toNat ∧
    (encode c (.ldhwu d a imm12 shift)).toNat =
      0x24010000 + d.val * 2 ^ 22 + a.val * 2 ^ 18 + shift * 2 ^ 12 + imm12.toNat ∧
    (encode c (.ldb d a imm12 shift)).toNat =
      0x20030000 + d.val * 2 ^ 22 + a.val * 2 ^ 18 + shift * 2 ^ 12 + imm12.toNat ∧
    (encode c (.ldbu d a imm12 shift)).toNat =
      0x20010000 + d.val * 2 ^ 22 + a.val * 2 ^ 18 + shift * 2 ^ 12 + imm12.toNat ∧
    (encode c (.stw d a imm12 shift)).toNat =
      0x3C010000 + d.val * 2 ^ 22 + a.val * 2 ^ 18 + shift * 2 ^ 12 + imm12.toNat ∧
    (encode c (.sthw d a imm12 shift)).toNat =
      0x34010000 + d.val * 2 ^ 22 + a.val * 2 ^ 18 + shift * 2 ^ 12 + imm12.toNat ∧
    (encode c (.stb d a imm12 shift)).toNat =
      0x30010000 + d.val * 2 ^ 22 + a.val * 2 ^ 18 + shift * 2 ^ 12 + imm12.toNat ∧
    -- __I: Imm [15:0] (R58)
    (encode c (.beq imm)).toNat = 0x90030000 + imm.toNat ∧
    (encode c (.bne imm)).toNat = 0x9C030000 + imm.toNat ∧
    (encode c (.bge imm)).toNat = 0x98030000 + imm.toNat ∧
    (encode c (.blt imm)).toNat = 0x94030000 + imm.toNat ∧
    -- J (R59), JR (R60), JL (R61), JLR (R62)
    (encode c (.j imm shift)).toNat = 0x80030000 + shift * 2 ^ 18 + imm.toNat ∧
    (encode c (.jr a)).toNat = 0x84020000 + a.val * 2 ^ 18 ∧
    (encode c (.jl d imm shift)).toNat = 0x88030000 + d.val * 2 ^ 22 + shift * 2 ^ 18 + imm.toNat ∧
    (encode c (.jlr d a imm)).toNat = 0x8C030000 + d.val * 2 ^ 22 + a.val * 2 ^ 18 + imm.toNat

/-- O3, tier 3. For every machine whose ENC_NOP and ENC_HALT are as R66 demands, and every well-formed instruction
with every operand value its encoding admits, decoding its encoded word gives the instruction back. (Rests on
30_encoding.md section 2 (R52 to R62), 30_encoding.md R66, 30_encoding.md R78.) -/
def Obligations.DecodingAnEncodedInstructionGivesItBack : Prop :=
  ∀ (c : Config) (i : Instr), c.wf = true → i.wf = true → decode c (encode c i) = .ok i

/-- O4, tier 3. On every machine, if a word decodes to an instruction, the instruction is well formed and its encoded
word is that word; so no bit of a word is ignored by the decoder. (Rests on 30_encoding.md section 2 (R52 to R62),
30_encoding.md R77, 30_encoding.md R78.) -/
def Obligations.EncodingADecodedWordGivesItBack : Prop :=
  ∀ (c : Config) (w : Word) (i : Instr), decode c w = .ok i → i.wf = true ∧ encode c i = w

/-- O5, tier 2. For every running state of a machine with well-formed parameters whose fetch gives the word w: at most
one row of the machine's table matches w; if a row matches, the step is the execution of that row's instruction with
its fields cut from w; if none matches, the step is the fault IllegalInstruction with the pc and w. (Formalises R78.)
-/
def Obligations.WordDecodesByItsOneRowOrIsIllegal : Prop :=
  ∀ (s : State) (w : Word), s.config.wf = true → s.halted = false → fetch s = .ok w →
    (s.config.rows.filter fun r => w &&& r.mask == r.pattern).length ≤ 1 ∧
    (∀ r ∈ s.config.rows, w &&& r.mask = r.pattern → step s = exec (r.build w) s) ∧
    ((∀ r ∈ s.config.rows, w &&& r.mask ≠ r.pattern) → step s = .fault (.illegalInstruction s.pc w))

/-- O6, tier 2. For every instruction whose format has reserved bits: a word with its opcode and ext and at least one
of those bits set, which is not one of the machine's own words ENC_NOP and ENC_HALT, is rejected for its reserved
bits. Among them is the legacy MOV: opcode 000111, ext 00 and a nonzero [21:18]. Each pair below is the opcode and ext
of an instruction and the reserved bits of its format. (Formalises R63, R77.) -/
def Obligations.ReservedBitSetIsNoInstruction : Prop :=
  ∀ (c : Config) (w : Word), w ≠ c.encNop → w ≠ c.encHalt →
    ∀ p ∈ ([(0x40000000, 0x0000FFF0), (0x40020000, 0x0000FFF0), (0x44000000, 0x0000FFF0), (0x44020000, 0x0000FFF0),
        (0x50000000, 0x0000FFF0), (0x54000000, 0x0000FFF0), (0x58000000, 0x0000FFF0), (0x60000000, 0x0000FFF0),
        (0x64000000, 0x0000FFF0), (0x64020000, 0x0000FFF0), (0x60010000, 0x0000FFE0), (0x64010000, 0x0000FFE0),
        (0x64030000, 0x0000FFE0), (0x1C000000, 0x003CFFF0), (0x14010000, 0x003C0000), (0x18010000, 0x003C0000),
        (0x90030000, 0x03FC0000), (0x94030000, 0x03FC0000), (0x98030000, 0x03FC0000), (0x9C030000, 0x03FC0000),
        (0x80030000, 0x03C00000), (0x84020000, 0x03C0FFFF)] : List (Word × Word)),
      w &&& 0xFC030000#32 = p.1 → w &&& p.2 ≠ 0#32 → decode c w = .error (.reservedBitsSet w)

/-- O7, tier 2. On every machine, a word whose opcode and ext are none of the 37 assigned cells (among the unassigned
ones: LDW with ext 01, every load and store with ext[0] = 0) and which is not ENC_NOP or ENC_HALT is rejected as
unassigned. (Rests on 30_encoding.md R64, 30_encoding.md R66, 30_encoding.md R80, 30_encoding.md R81.) -/
def Obligations.EmptyCellOfTheOpcodeMapIsNoInstruction : Prop :=
  ∀ (c : Config) (w : Word), w ≠ c.encNop → w ≠ c.encHalt →
    w &&& 0xFC030000#32 ∉ ([0x14010000, 0x18010000, 0x1C000000, 0x20010000, 0x20030000, 0x24010000, 0x24030000,
        0x2C030000, 0x30010000, 0x34010000, 0x3C010000, 0x40000000, 0x40020000, 0x40030000, 0x44000000, 0x44020000,
        0x44030000, 0x50000000, 0x50010000, 0x54000000, 0x54010000, 0x58000000, 0x58010000, 0x60000000, 0x60010000,
        0x64000000, 0x64010000, 0x64020000, 0x64030000, 0x80030000, 0x84020000, 0x88030000, 0x8C030000, 0x90030000,
        0x94030000, 0x98030000, 0x9C030000] : List Word) →
      decode c w = .error (.unassigned w)

/-- O8, tier 2. ADDI and SUBI, and ANDI, ORI and XORI, use the sign-extended 16-bit field; a load or store
displacement is the signed 12-bit field (-2048 .. 2047) times 2^shift; the offset of a branch and of JLR is the signed
16-bit field (-32768 .. 32767) times 4; that of J and JL is it times 2^(shift + 2); each modulo 2^32. The last clause
is the effective address of R130: the base register plus that displacement. (The amounts of SLI, SRI, SRAI are
unsigned and the Imm of MOVIL, MOVIH is raw: they are in the statements of those instructions.) (Formalises R70, R71,
R74, R75, R76, R130.) -/
def Obligations.ImmediatesAreScaledSignedIntegers : Prop :=
  (∀ imm : BitVec 16, arithImm imm = BitVec.ofInt 32 imm.toInt ∧ logicImm imm = BitVec.ofInt 32 imm.toInt ∧
      -32768 ≤ imm.toInt ∧ imm.toInt ≤ 32767) ∧
  (∀ imm : BitVec 16, wordOffset imm = BitVec.ofInt 32 (imm.toInt * 4)) ∧
  (∀ (imm : BitVec 16) (shift : Nat), jumpOffset imm shift = BitVec.ofInt 32 (imm.toInt * 2 ^ (shift + 2))) ∧
  (∀ (imm : BitVec 12) (shift : Nat), displacement imm shift = BitVec.ofInt 32 (imm.toInt * 2 ^ shift) ∧
      -2048 ≤ imm.toInt ∧ imm.toInt ≤ 2047) ∧
  (∀ (s : State) (ra : RegIdx) (imm : BitVec 12) (shift : Nat),
      s.ea ra imm shift = s.readReg ra + BitVec.ofInt 32 (imm.toInt * 2 ^ shift))

/-- O9, tier 1. For every machine and every loaded memory: after reset pc is RESET_PC, halted is 0, no fault is
recorded, memory and parameters are as given, and the first step runs the instruction fetched at RESET_PC itself. The
default RESET_PC is 0. (What registers and flags hold at reset is the model's choice, log 4 and 5, and not stated.)
(Formalises R190.) -/
def Obligations.ResetStartsRunningAtResetPc : Prop :=
  ∀ (c : Config) (m : Memory),
    (State.resetWith c m).pc = c.resetPc ∧ (State.resetWith c m).halted = false ∧
    (Run.start (State.resetWith c m)).status = .running ∧
    (State.resetWith c m).mem = m ∧ (State.resetWith c m).config = c ∧
    (∀ (w : Word) (i : Instr), aligned c.resetPc .word = true → memRead32 (State.resetWith c m) c.resetPc = .ok w →
      decode c w = .ok i → step (State.resetWith c m) = exec i (State.resetWith c m)) ∧
    State.reset = State.resetWith .defaults [] ∧ Config.defaults.resetPc = 0x00000000#32

/-- O10, tier 1. Memory in canonical form with every listed byte inside MEM_MAP: it holds of the state after reset,
and of the state after reset with any memory loaded that has it. (Rests on 20_memory.md R40, 70_reset_and_hazards.md
R190, 70_reset_and_hazards.md R192.) -/
def Obligations.InvariantHoldsAtReset : Prop :=
  Inv State.reset ∧
  ∀ (c : Config) (m : Memory), m.wf → (∀ p ∈ m, mapped c (BitVec.ofNat 32 p.1) = true) → Inv (State.resetWith c m)

/-- O11, tier 3. Memory stays in its canonical form and lists no byte outside MEM_MAP, over every instruction and
every state with the invariant. (Rests on 20_memory.md R34, 20_memory.md R40, 10_state.md R28.) -/
def Obligations.EveryStepKeepsTheInvariant : Prop :=
  ∀ s t : State, Inv s → step s = .next t → Inv t

/-- O12, tier 2. Over every state: a step that answers a next state leaves RESET_PC, MEM_MAP, ENC_NOP, ENC_HALT and
the power-up (so the free value of every unwritten byte) as they were. That the parameters stand in State and no step
changes them is the model's choice (log 1, DESIGN CHOICE), and so is the power-up, the model's own field (log 6,
DESIGN CHOICE). (Rests on 92_eei_decisions.md, parameters, 20_memory.md R39.) -/
def Obligations.StepsKeepParametersAndPowerUp : Prop :=
  ∀ s t : State, step s = .next t → t.config = s.config ∧ t.powerUp = s.powerUp

/-- O13, tier 2. For every state and address: a 2-byte read at an odd address and a 4-byte read at a non-multiple of 4
raise MisalignedAccess; an aligned read with a byte outside MEM_MAP raises AccessFault; otherwise the value, as a
number, is made of the bytes with the first one most significant. (Rests on 20_memory.md R33.) -/
def Obligations.MemReadChecksThenReadsBigEndian : Prop :=
  ∀ (s : State) (a : Word),
    (mapped s.config a = false → memRead8 s a = .error (.accessFault a)) ∧
    (mapped s.config a = true → memRead8 s a = .ok (s.byteAt a)) ∧
    (a.toNat % 2 ≠ 0 → memRead16 s a = .error (.misalignedAccess a)) ∧
    (a.toNat % 2 = 0 → (mapped s.config a && mapped s.config (a + 1#32)) = false →
      memRead16 s a = .error (.accessFault a)) ∧
    (a.toNat % 2 = 0 → mapped s.config a = true → mapped s.config (a + 1#32) = true →
      ∃ v : Half, memRead16 s a = .ok v ∧ v.toNat = (s.byteAt a).toNat * 2 ^ 8 + (s.byteAt (a + 1#32)).toNat) ∧
    (a.toNat % 4 ≠ 0 → memRead32 s a = .error (.misalignedAccess a)) ∧
    (a.toNat % 4 = 0 → (∃ k, k < 4 ∧ mapped s.config (a + BitVec.ofNat 32 k) = false) →
      memRead32 s a = .error (.accessFault a)) ∧
    (a.toNat % 4 = 0 → (∀ k, k < 4 → mapped s.config (a + BitVec.ofNat 32 k) = true) →
      ∃ v : Word, memRead32 s a = .ok v ∧
        v.toNat = (s.byteAt a).toNat * 2 ^ 24 + (s.byteAt (a + 1#32)).toNat * 2 ^ 16 +
          (s.byteAt (a + 2#32)).toNat * 2 ^ 8 + (s.byteAt (a + 3#32)).toNat)

/-- O14, tier 2. For every state, address, width and value: a misaligned access or one with a byte outside MEM_MAP
raises its fault (and answers no state); otherwise the n bytes are the value's low 8n bits, most significant first,
every byte outside them reads as before, and nothing but memory changes. (Rests on 20_memory.md R34.) -/
def Obligations.MemWriteChecksThenWritesBigEndian : Prop :=
  ∀ (s : State) (a v : Word) (w : Width),
    (a.toNat % w.bytes ≠ 0 → memWrite s a w v = .error (.misalignedAccess a)) ∧
    (a.toNat % w.bytes = 0 → (∃ k, k < w.bytes ∧ mapped s.config (a + BitVec.ofNat 32 k) = false) →
      memWrite s a w v = .error (.accessFault a)) ∧
    (a.toNat % w.bytes = 0 → (∀ k, k < w.bytes → mapped s.config (a + BitVec.ofNat 32 k) = true) →
      ∃ t, memWrite s a w v = .ok t ∧
        (∀ k, k < w.bytes → (t.byteAt (a + BitVec.ofNat 32 k)).toNat = v.toNat / 2 ^ (8 * (w.bytes - 1 - k)) % 256) ∧
        (∀ b : Word, (∀ k, k < w.bytes → b ≠ a + BitVec.ofNat 32 k) → t.byteAt b = s.byteAt b) ∧
        SameRegs s t ∧ t.pc = s.pc ∧ t.flags = s.flags ∧ SameMachine s t)

/-- O15, tier 2. After STW, LDW at the same address gives the stored register and LDHWU and LDBU its high half and top
byte; after STHW, LDHW and LDHWU give the sign- and zero-extended low half; after STB, LDB and LDBU the low byte. The
effective addresses are computed by each instruction in its own state. (Rests on 20_memory.md R42, 20_memory.md R35
(mixed-width view), 43_memory_ops.md R139.) -/
def Obligations.LoadAfterStoreReturnsWhatWasStored : Prop :=
  ∀ (s : State) (rv ra rd : RegIdx) (imm : BitVec 12) (shift : Nat),
    (aligned (s.ea ra imm shift) .word = true → mappedAccess s.config (s.ea ra imm shift) .word = true →
      Completes (.stw rv ra imm shift) s fun t =>
        Completes (.ldw rd ra imm shift) t (fun u => u.readReg rd = s.readReg rv) ∧
        Completes (.ldhwu rd ra imm shift) t (fun u => u.readReg rd = s.readReg rv >>> 16) ∧
        Completes (.ldbu rd ra imm shift) t (fun u => u.readReg rd = s.readReg rv >>> 24)) ∧
    (aligned (s.ea ra imm shift) .half = true → mappedAccess s.config (s.ea ra imm shift) .half = true →
      Completes (.sthw rv ra imm shift) s fun t =>
        Completes (.ldhw rd ra imm shift) t
          (fun u => u.readReg rd = ((s.readReg rv).extractLsb' 0 16).signExtend 32) ∧
        Completes (.ldhwu rd ra imm shift) t
          (fun u => u.readReg rd = ((s.readReg rv).extractLsb' 0 16).zeroExtend 32)) ∧
    (mapped s.config (s.ea ra imm shift) = true →
      Completes (.stb rv ra imm shift) s fun t =>
        Completes (.ldb rd ra imm shift) t
          (fun u => u.readReg rd = ((s.readReg rv).extractLsb' 0 8).signExtend 32) ∧
        Completes (.ldbu rd ra imm shift) t
          (fun u => u.readReg rd = ((s.readReg rv).extractLsb' 0 8).zeroExtend 32))

/-- O16, tier 2. A fetch that succeeds is MemRead(pc, 4): bits [31:24] of the word are the byte at pc, and so on to
bits [7:0], the byte at pc + 3; it is through the same memory that loads and stores use. (Rests on 20_memory.md R35.)
-/
def Obligations.FetchReadsTheInstructionWordBigEndian : Prop :=
  ∀ (s : State) (w : Word), fetch s = .ok w →
    memRead32 s s.pc = .ok w ∧
    w.extractLsb' 24 8 = s.byteAt s.pc ∧ w.extractLsb' 16 8 = s.byteAt (s.pc + 1#32) ∧
    w.extractLsb' 8 8 = s.byteAt (s.pc + 2#32) ∧ w.extractLsb' 0 8 = s.byteAt (s.pc + 3#32)

/-- O17, tier 2. For every well-formed instruction i of a machine with well-formed parameters: if STW completes with
the word of i in its register, then in the state after it, in any later state u that reads the same four bytes there
and whose pc is the stored address, the step of the running machine is the execution of i. (STHW and STB, and words
stored in part, are in FetchSeesTheBytesOfEveryStore; R45 advises to refuse such programs, and the model runs them,
log 16.) (Rests on 20_memory.md R45, 20_memory.md R35.) -/
def Obligations.StoredInstructionIsWhatTheNextFetchRuns : Prop :=
  ∀ (s t u : State) (i : Instr) (rv ra : RegIdx) (imm : BitVec 12) (shift : Nat),
    s.config.wf = true → i.wf = true → s.readReg rv = encode s.config i →
    exec (.stw rv ra imm shift) s = .next t →
    u.pc = s.ea ra imm shift → u.halted = false → u.config = t.config →
    (∀ k, k < 4 → u.byteAt (s.ea ra imm shift + BitVec.ofNat 32 k) = t.byteAt (s.ea ra imm shift + BitVec.ofNat 32 k)) →
    step u = exec i u

/-- O18, tier 2. For every state and operands: the instruction completes, Z is set iff the 32-bit result is 0, N is
its bit 31, V is set iff the operands' signs (equal for an addition, different for a subtraction) and the result's
sign are as the rule says, and that is iff the exact signed sum or difference lies outside -2^31 .. 2^31-1.
(Formalises R20.) -/
def Obligations.SignedArithmeticFlagsReportTheExactResult : Prop :=
  (∀ (s : State) (rd ra rb : RegIdx) (imm : BitVec 16) (i : Instr) (a b r : Word), a = s.readReg ra →
    ((i = .add rd ra rb ∧ b = s.readReg rb) ∨ (i = .addi rd ra imm ∧ b = imm.signExtend 32)) → r = a + b →
    Completes i s fun t =>
      (t.flags.z = true ↔ r = 0#32) ∧ t.flags.n = r.getLsbD 31 ∧
      (t.flags.v = true ↔ a.getLsbD 31 = b.getLsbD 31 ∧ r.getLsbD 31 ≠ a.getLsbD 31) ∧
      (t.flags.v = true ↔ a.toInt + b.toInt < -2147483648 ∨ 2147483647 < a.toInt + b.toInt)) ∧
  (∀ (s : State) (rd ra rb : RegIdx) (imm : BitVec 16) (i : Instr) (a b r : Word), a = s.readReg ra →
    ((i = .sub rd ra rb ∧ b = s.readReg rb) ∨ (i = .subi rd ra imm ∧ b = imm.signExtend 32)) → r = a - b →
    Completes i s fun t =>
      (t.flags.z = true ↔ r = 0#32) ∧ t.flags.n = r.getLsbD 31 ∧
      (t.flags.v = true ↔ a.getLsbD 31 ≠ b.getLsbD 31 ∧ r.getLsbD 31 ≠ a.getLsbD 31) ∧
      (t.flags.v = true ↔ a.toInt - b.toInt < -2147483648 ∨ 2147483647 < a.toInt - b.toInt))

/-- O19, tier 2. For every state and operands: ADDU and SUBU complete; Z is set iff the 32-bit result is 0, N is 0,
and V is set iff the exact unsigned sum is at least 2^32 (ADDU) or the first operand is below the second (SUBU), which
is iff the exact result is not the 32-bit result read as unsigned. (Formalises R21.) -/
def Obligations.UnsignedArithmeticFlagsReportCarryAndBorrow : Prop :=
  ∀ (s : State) (rd ra rb : RegIdx) (a b : Word), a = s.readReg ra → b = s.readReg rb →
    (Completes (.addu rd ra rb) s fun t =>
      (t.flags.z = true ↔ a + b = 0#32) ∧ t.flags.n = false ∧
      (t.flags.v = true ↔ 4294967296 ≤ a.toNat + b.toNat) ∧
      (t.flags.v = true ↔ (a + b).toNat ≠ a.toNat + b.toNat)) ∧
    (Completes (.subu rd ra rb) s fun t =>
      (t.flags.z = true ↔ a - b = 0#32) ∧ t.flags.n = false ∧
      (t.flags.v = true ↔ a.toNat < b.toNat) ∧
      (t.flags.v = true ↔ ((a - b).toNat : Int) ≠ (a.toNat : Int) - b.toNat))

/-- O20, tier 2. Over every instruction and state: an instruction other than the six that completes leaves F.Z, F.N,
F.V as they were; each of the six completes with flags that do not depend on the flags before, so it writes all three.
(Formalises R19.) -/
def Obligations.OnlySixInstructionsWriteTheFlags : Prop :=
  (∀ (i : Instr) (s t : State), i.writesFlags = false → exec i s = .next t → t.flags = s.flags) ∧
  (∀ (i : Instr) (s : State) (f : Flags), i.writesFlags = true →
    ∃ t u, exec i s = .next t ∧ exec i (s.setFlags f) = .next u ∧ u.flags = t.flags)

/-- O21, tier 2. BEQ, BNE, BGE and BLT are taken iff Z = 1, Z = 0, N = V and N != V; no other instruction reads the
flags; and right after a flag-writing instruction they are the comparisons listed in the rule: signed after SUB and
SUBI (overflow or not), unsigned after SUBU, of the exact signed sum with 0 after ADD and ADDI, the carry after ADDU
(these consequences the rule marks as derived from its table and R20, R21). (Formalises R22.) -/
def Obligations.BranchesReadTheFlagsAsComparisons : Prop :=
  (∀ (s : State) (imm : BitVec 16),
    (Completes (.beq imm) s fun t => t.pc = if s.flags.z = true then s.pc + wordOffset imm else s.pc + 4#32) ∧
    (Completes (.bne imm) s fun t => t.pc = if s.flags.z = false then s.pc + wordOffset imm else s.pc + 4#32) ∧
    (Completes (.bge imm) s fun t => t.pc = if s.flags.n = s.flags.v then s.pc + wordOffset imm else s.pc + 4#32) ∧
    (Completes (.blt imm) s fun t => t.pc = if s.flags.n ≠ s.flags.v then s.pc + wordOffset imm else s.pc + 4#32)) ∧
  (∀ (i : Instr) (s : State) (f : Flags), i.readsFlags = false →
    (∀ t, exec i s = .next t → exec i (s.setFlags f) = .next (if i.writesFlags then t else t.setFlags f)) ∧
    (∀ e, exec i s = .fault e → exec i (s.setFlags f) = .fault e)) ∧
  (∀ (s : State) (rd ra rb : RegIdx) (imm : BitVec 16) (i : Instr) (a b : Word), a = s.readReg ra →
    ((i = .sub rd ra rb ∧ b = s.readReg rb) ∨ (i = .subi rd ra imm ∧ b = imm.signExtend 32)) →
    Completes i s fun t => ∀ off : BitVec 16,
      (Completes (.beq off) t fun u => u.pc = if a = b then t.pc + wordOffset off else t.pc + 4#32) ∧
      (Completes (.blt off) t fun u => u.pc = if a.toInt < b.toInt then t.pc + wordOffset off else t.pc + 4#32) ∧
      (Completes (.bge off) t fun u => u.pc = if b.toInt ≤ a.toInt then t.pc + wordOffset off else t.pc + 4#32)) ∧
  (∀ (s : State) (rd ra rb : RegIdx) (a b : Word), a = s.readReg ra → b = s.readReg rb →
    Completes (.subu rd ra rb) s fun t => ∀ off : BitVec 16,
      (Completes (.beq off) t fun u => u.pc = if a = b then t.pc + wordOffset off else t.pc + 4#32) ∧
      (Completes (.blt off) t fun u => u.pc = if a.toNat < b.toNat then t.pc + wordOffset off else t.pc + 4#32) ∧
      (Completes (.bge off) t fun u => u.pc = if b.toNat ≤ a.toNat then t.pc + wordOffset off else t.pc + 4#32)) ∧
  (∀ (s : State) (rd ra rb : RegIdx) (imm : BitVec 16) (i : Instr) (a b : Word), a = s.readReg ra →
    ((i = .add rd ra rb ∧ b = s.readReg rb) ∨ (i = .addi rd ra imm ∧ b = imm.signExtend 32)) →
    Completes i s fun t => ∀ off : BitVec 16,
      (Completes (.beq off) t fun u => u.pc = if a + b = 0#32 then t.pc + wordOffset off else t.pc + 4#32) ∧
      (Completes (.blt off) t fun u =>
        u.pc = if a.toInt + b.toInt < 0 then t.pc + wordOffset off else t.pc + 4#32)) ∧
  (∀ (s : State) (rd ra rb : RegIdx) (a b : Word), a = s.readReg ra → b = s.readReg rb →
    Completes (.addu rd ra rb) s fun t => ∀ off : BitVec 16,
      (Completes (.beq off) t fun u => u.pc = if a + b = 0#32 then t.pc + wordOffset off else t.pc + 4#32) ∧
      (Completes (.blt off) t fun u =>
        u.pc = if 4294967296 ≤ a.toNat + b.toNat then t.pc + wordOffset off else t.pc + 4#32))

/-- O22, tier 3. For every number of steps: if two states differ only in their flags and these agree on F.Z and on F.N
!= F.V, then the two runs stand alike (running, halted, or stopped by the same fault) in states that are the same but
for flags that agree again. So nothing but the two predicates of the flags is observable. (Rests on 10_state.md R23.)
-/
def Obligations.FlagsAreObservableOnlyThroughTwoPredicates : Prop :=
  ∀ (n : Nat) (s : State) (f : Flags), FlagsAgree s.flags f →
    ∃ g, FlagsAgree ((Run.start s).ticks n).state.flags g ∧
      (Run.start (s.setFlags f)).ticks n =
        ⟨((Run.start s).ticks n).state.setFlags g, ((Run.start s).ticks n).status⟩

/-- O23, tier 2. Every word of the row decodes to the instruction with its fields; in every state it completes with
the 32-bit sum (of the two registers, or of the register and the sign-extended Imm) in Rd, the flags of the exact
signed sum, pc + 4, and every other register, every byte of memory and the rest unchanged. (Formalises R101, R103.) -/
def Obligations.AddAndAddiAddWithSignedFlags : Prop :=
  DecodesTo 0xFC03FFF0#32 0x40020000#32 (fun w => .add (fieldRd w) (fieldRa w) (fieldRb w)) ∧
  DecodesTo 0xFC030000#32 0x40030000#32 (fun w => .addi (fieldRd w) (fieldRa w) (fieldImm16 w)) ∧
  ∀ (s : State) (rd ra rb : RegIdx) (imm : BitVec 16),
    (Completes (.add rd ra rb) s fun t =>
      RegResult s t rd (s.readReg ra + s.readReg rb) (exactAddFlags (s.readReg ra) (s.readReg rb)) (s.pc + 4#32)) ∧
    (Completes (.addi rd ra imm) s fun t =>
      RegResult s t rd (s.readReg ra + imm.signExtend 32) (exactAddFlags (s.readReg ra) (imm.signExtend 32))
        (s.pc + 4#32))

/-- O24, tier 2. Every word of the row decodes to the instruction with its fields; in every state it completes with
the 32-bit difference in Rd, the flags of the exact signed difference, pc + 4, and every other register, every byte of
memory and the rest unchanged. (Formalises R104, R106.) -/
def Obligations.SubAndSubiSubtractWithSignedFlags : Prop :=
  DecodesTo 0xFC03FFF0#32 0x44020000#32 (fun w => .sub (fieldRd w) (fieldRa w) (fieldRb w)) ∧
  DecodesTo 0xFC030000#32 0x44030000#32 (fun w => .subi (fieldRd w) (fieldRa w) (fieldImm16 w)) ∧
  ∀ (s : State) (rd ra rb : RegIdx) (imm : BitVec 16),
    (Completes (.sub rd ra rb) s fun t =>
      RegResult s t rd (s.readReg ra - s.readReg rb) (exactSubFlags (s.readReg ra) (s.readReg rb)) (s.pc + 4#32)) ∧
    (Completes (.subi rd ra imm) s fun t =>
      RegResult s t rd (s.readReg ra - imm.signExtend 32) (exactSubFlags (s.readReg ra) (imm.signExtend 32))
        (s.pc + 4#32))

/-- O25, tier 2. Every word of the row decodes to the instruction with its fields; in every state it completes with
the 32-bit sum or difference in Rd, Z = (result is 0), N = 0, V = carry or borrow, pc + 4, and every other register,
every byte of memory and the rest unchanged. (Formalises R102, R105.) -/
def Obligations.AdduAndSubuComputeWithUnsignedFlags : Prop :=
  DecodesTo 0xFC03FFF0#32 0x40000000#32 (fun w => .addu (fieldRd w) (fieldRa w) (fieldRb w)) ∧
  DecodesTo 0xFC03FFF0#32 0x44000000#32 (fun w => .subu (fieldRd w) (fieldRa w) (fieldRb w)) ∧
  ∀ (s : State) (rd ra rb : RegIdx),
    (Completes (.addu rd ra rb) s fun t =>
      RegResult s t rd (s.readReg ra + s.readReg rb)
        ⟨decide (s.readReg ra + s.readReg rb = 0#32), false,
          decide (4294967296 ≤ (s.readReg ra).toNat + (s.readReg rb).toNat)⟩ (s.pc + 4#32)) ∧
    (Completes (.subu rd ra rb) s fun t =>
      RegResult s t rd (s.readReg ra - s.readReg rb)
        ⟨decide (s.readReg ra - s.readReg rb = 0#32), false,
          decide ((s.readReg ra).toNat < (s.readReg rb).toNat)⟩ (s.pc + 4#32))

/-- O26, tier 2. Every word of the row decodes to the instruction with its fields; in every state it completes with a
result in Rd whose every bit is the and, or, exclusive or of the two registers' bits, pc + 4, and every flag, every
other register, every byte of memory and the rest unchanged. (Formalises R111, R113, R115.) -/
def Obligations.LogicRegisterFormsWorkBitByBit : Prop :=
  DecodesTo 0xFC03FFF0#32 0x50000000#32 (fun w => .and (fieldRd w) (fieldRa w) (fieldRb w)) ∧
  DecodesTo 0xFC03FFF0#32 0x54000000#32 (fun w => .or (fieldRd w) (fieldRa w) (fieldRb w)) ∧
  DecodesTo 0xFC03FFF0#32 0x58000000#32 (fun w => .xor (fieldRd w) (fieldRa w) (fieldRb w)) ∧
  ∀ (s : State) (rd ra rb : RegIdx),
    (Completes (.and rd ra rb) s fun t => ∃ v : Word, RegResult s t rd v s.flags (s.pc + 4#32) ∧
      ∀ k, v.getLsbD k = ((s.readReg ra).getLsbD k && (s.readReg rb).getLsbD k)) ∧
    (Completes (.or rd ra rb) s fun t => ∃ v : Word, RegResult s t rd v s.flags (s.pc + 4#32) ∧
      ∀ k, v.getLsbD k = ((s.readReg ra).getLsbD k || (s.readReg rb).getLsbD k)) ∧
    (Completes (.xor rd ra rb) s fun t => ∃ v : Word, RegResult s t rd v s.flags (s.pc + 4#32) ∧
      ∀ k, v.getLsbD k = ((s.readReg ra).getLsbD k ^^ (s.readReg rb).getLsbD k))

/-- O27, tier 2. Every word of the row decodes to the instruction with its fields; in every state it completes with a
result in Rd whose every bit is the and, or, exclusive or of the register's bit and the immediate's (bit k of Imm
below 16, bit 15 above), pc + 4, and every flag, every other register, every byte of memory and the rest unchanged.
(Formalises R112, R114, R116.) -/
def Obligations.LogicImmediateFormsWorkBitByBit : Prop :=
  DecodesTo 0xFC030000#32 0x50010000#32 (fun w => .andi (fieldRd w) (fieldRa w) (fieldImm16 w)) ∧
  DecodesTo 0xFC030000#32 0x54010000#32 (fun w => .ori (fieldRd w) (fieldRa w) (fieldImm16 w)) ∧
  DecodesTo 0xFC030000#32 0x58010000#32 (fun w => .xori (fieldRd w) (fieldRa w) (fieldImm16 w)) ∧
  ∀ (s : State) (rd ra : RegIdx) (imm : BitVec 16),
    (Completes (.andi rd ra imm) s fun t => ∃ v : Word, RegResult s t rd v s.flags (s.pc + 4#32) ∧
      ∀ k, k < 32 → v.getLsbD k = ((s.readReg ra).getLsbD k && imm.getLsbD (if k < 16 then k else 15))) ∧
    (Completes (.ori rd ra imm) s fun t => ∃ v : Word, RegResult s t rd v s.flags (s.pc + 4#32) ∧
      ∀ k, k < 32 → v.getLsbD k = ((s.readReg ra).getLsbD k || imm.getLsbD (if k < 16 then k else 15))) ∧
    (Completes (.xori rd ra imm) s fun t => ∃ v : Word, RegResult s t rd v s.flags (s.pc + 4#32) ∧
      ∀ k, k < 32 → v.getLsbD k = ((s.readReg ra).getLsbD k ^^ imm.getLsbD (if k < 16 then k else 15)))

/-- O28, tier 2. The pseudo-instruction NOT Rd Ra is the XORI whose encoded word has Imm 0xFFFF; in every state it
completes with every one of the 32 bits of x[Ra] inverted in Rd, and changes nothing else but the pc. (Formalises
R117.) -/
def Obligations.NotIsXoriWithAllOnes : Prop :=
  ∀ (c : Config) (s : State) (rd ra : RegIdx),
    decode c (encode c (notPseudo rd ra)) = .ok (.xori rd ra 0xFFFF#16) ∧
    (encode c (notPseudo rd ra)).toNat = 0x5801FFFF + rd.val * 2 ^ 22 + ra.val * 2 ^ 18 ∧
    Completes (notPseudo rd ra) s fun t => ∃ v : Word, RegResult s t rd v s.flags (s.pc + 4#32) ∧
      ∀ k, k < 32 → v.getLsbD k = !(s.readReg ra).getLsbD k

/-- O29, tier 2. Every word of the row decodes to the instruction with its fields; in every state it completes with
x[Ra] times 2^n modulo 2^32 (SL), x[Ra] divided by 2^n as unsigned (SR) or as signed rounding down (SRA) in Rd, n
being x[Rb] modulo 32, pc + 4, and every flag, every other register, every byte of memory and the rest unchanged.
(Formalises R121, R123, R125.) -/
def Obligations.RegisterShiftsUseTheLowFiveBits : Prop :=
  DecodesTo 0xFC03FFF0#32 0x60000000#32 (fun w => .sl (fieldRd w) (fieldRa w) (fieldRb w)) ∧
  DecodesTo 0xFC03FFF0#32 0x64000000#32 (fun w => .sr (fieldRd w) (fieldRa w) (fieldRb w)) ∧
  DecodesTo 0xFC03FFF0#32 0x64020000#32 (fun w => .sra (fieldRd w) (fieldRa w) (fieldRb w)) ∧
  ∀ (s : State) (rd ra rb : RegIdx) (n : Nat), n = (s.readReg rb).toNat % 32 →
    (Completes (.sl rd ra rb) s fun t => ∃ v : Word, RegResult s t rd v s.flags (s.pc + 4#32) ∧
      v.toNat = (s.readReg ra).toNat * 2 ^ n % 2 ^ 32) ∧
    (Completes (.sr rd ra rb) s fun t => ∃ v : Word, RegResult s t rd v s.flags (s.pc + 4#32) ∧
      v.toNat = (s.readReg ra).toNat / 2 ^ n) ∧
    (Completes (.sra rd ra rb) s fun t => ∃ v : Word, RegResult s t rd v s.flags (s.pc + 4#32) ∧
      v.toInt = (s.readReg ra).toInt / 2 ^ n)

/-- O30, tier 2. Every word of the row decodes to the instruction with its fields; for every amount in 0 .. 31 and
every state it completes with x[Ra] times 2^n modulo 2^32 (SLI), divided by 2^n as unsigned (SRI) or as signed
rounding down (SRAI) in Rd, pc + 4, and every flag, every other register, every byte of memory and the rest unchanged.
(Formalises R122, R124, R126.) -/
def Obligations.ImmediateShiftsUseTheirField : Prop :=
  DecodesTo 0xFC03FFE0#32 0x60010000#32 (fun w => .sli (fieldRd w) (fieldRa w) (fieldAmount w)) ∧
  DecodesTo 0xFC03FFE0#32 0x64010000#32 (fun w => .sri (fieldRd w) (fieldRa w) (fieldAmount w)) ∧
  DecodesTo 0xFC03FFE0#32 0x64030000#32 (fun w => .srai (fieldRd w) (fieldRa w) (fieldAmount w)) ∧
  ∀ (s : State) (rd ra : RegIdx) (n : Nat), n < 32 →
    (Completes (.sli rd ra n) s fun t => ∃ v : Word, RegResult s t rd v s.flags (s.pc + 4#32) ∧
      v.toNat = (s.readReg ra).toNat * 2 ^ n % 2 ^ 32) ∧
    (Completes (.sri rd ra n) s fun t => ∃ v : Word, RegResult s t rd v s.flags (s.pc + 4#32) ∧
      v.toNat = (s.readReg ra).toNat / 2 ^ n) ∧
    (Completes (.srai rd ra n) s fun t => ∃ v : Word, RegResult s t rd v s.flags (s.pc + 4#32) ∧
      v.toInt = (s.readReg ra).toInt / 2 ^ n)

/-- O31, tier 2. For every state, operands and amount n in 0 .. 31, n being x[Rb] modulo 32 for SR and SRA and the
field for SRI and SRAI: bit k of the result is bit k + n of x[Ra] while that is below 32, else 0 for the logical and
the old bit 31 for the arithmetic shifts, which so divide the signed value by 2^n rounding toward minus infinity.
(Formalises R127.) -/
def Obligations.RightShiftsFillWithZeroOrTheSign : Prop :=
  ∀ (s : State) (rd ra rb : RegIdx) (n : Nat), n < 32 →
    (∀ i : Instr, (i = .sr rd ra rb ∧ (s.readReg rb).toNat % 32 = n) ∨ i = .sri rd ra n →
      Completes i s fun t => ∀ k, k < 32 →
        (t.readReg rd).getLsbD k = if k + n < 32 then (s.readReg ra).getLsbD (k + n) else false) ∧
    (∀ i : Instr, (i = .sra rd ra rb ∧ (s.readReg rb).toNat % 32 = n) ∨ i = .srai rd ra n → Completes i s fun t =>
      (∀ k, k < 32 →
        (t.readReg rd).getLsbD k = if k + n < 32 then (s.readReg ra).getLsbD (k + n) else (s.readReg ra).getLsbD 31) ∧
      (t.readReg rd).toInt = Int.fdiv (s.readReg ra).toInt (2 ^ n))

/-- O32, tier 2. Every word of the row decodes to the instruction with its fields; in every state MOV completes with
x[Rb] in Rd; MOVIL with Imm in bits [15:0] and the old bits [31:16]; MOVIH with Imm in bits [31:16] and the old bits
[15:0]; pc + 4, and every flag, every other register, every byte of memory and the rest unchanged. (Formalises R145,
R146, R147.) -/
def Obligations.MovesCopyOrReplaceOneHalf : Prop :=
  DecodesTo 0xFC3FFFF0#32 0x1C000000#32 (fun w => .mov (fieldRd w) (fieldRb w)) ∧
  DecodesTo 0xFC3F0000#32 0x14010000#32 (fun w => .movil (fieldRd w) (fieldImm16 w)) ∧
  DecodesTo 0xFC3F0000#32 0x18010000#32 (fun w => .movih (fieldRd w) (fieldImm16 w)) ∧
  ∀ (s : State) (rd rb : RegIdx) (imm : BitVec 16),
    (Completes (.mov rd rb) s fun t => RegResult s t rd (s.readReg rb) s.flags (s.pc + 4#32)) ∧
    (Completes (.movil rd imm) s fun t => ∃ v : Word, RegResult s t rd v s.flags (s.pc + 4#32) ∧
      v.toNat = (s.readReg rd).toNat / 2 ^ 16 * 2 ^ 16 + imm.toNat) ∧
    (Completes (.movih rd imm) s fun t => ∃ v : Word, RegResult s t rd v s.flags (s.pc + 4#32) ∧
      v.toNat = imm.toNat * 2 ^ 16 + (s.readReg rd).toNat % 2 ^ 16)

/-- O33, tier 2. For every state, every one of the 16 registers and every 32-bit K: both orders complete with x[Rd] =
K, whatever Rd held before. (Formalises R148.) -/
def Obligations.MovePairLoadsAnyConstantInEitherOrder : Prop :=
  ∀ (s : State) (rd : RegIdx) (K : Word),
    (Completes (.movil rd (K.extractLsb' 0 16)) s fun t =>
      Completes (.movih rd (K.extractLsb' 16 16)) t fun u => u.readReg rd = K) ∧
    (Completes (.movih rd (K.extractLsb' 16 16)) s fun t =>
      Completes (.movil rd (K.extractLsb' 0 16)) t fun u => u.readReg rd = K)

/-- O34, tier 2. Every word of the row decodes to the instruction with its fields; in every state where the effective
address is a multiple of the size and its bytes are in MEM_MAP the load completes with the big-endian bytes, sign- or
zero-extended as the instruction says, in Rv, pc + 4, and every flag, every other register, every byte of memory and
the rest unchanged. (Formalises R131, R132, R133, R134, R135.) -/
def Obligations.LoadsReadTheirBytesIntoRv : Prop :=
  DecodesTo 0xFC030000#32 0x2C030000#32 (fun w => .ldw (fieldRd w) (fieldRa w) (fieldImm12 w) (fieldMemShift w)) ∧
  DecodesTo 0xFC030000#32 0x24030000#32 (fun w => .ldhw (fieldRd w) (fieldRa w) (fieldImm12 w) (fieldMemShift w)) ∧
  DecodesTo 0xFC030000#32 0x24010000#32 (fun w => .ldhwu (fieldRd w) (fieldRa w) (fieldImm12 w) (fieldMemShift w)) ∧
  DecodesTo 0xFC030000#32 0x20030000#32 (fun w => .ldb (fieldRd w) (fieldRa w) (fieldImm12 w) (fieldMemShift w)) ∧
  DecodesTo 0xFC030000#32 0x20010000#32 (fun w => .ldbu (fieldRd w) (fieldRa w) (fieldImm12 w) (fieldMemShift w)) ∧
  ∀ (s : State) (rv ra : RegIdx) (imm : BitVec 12) (shift : Nat) (a : Word), s.ea ra imm shift = a →
    (a.toNat % 4 = 0 → (∀ k, k < 4 → mapped s.config (a + BitVec.ofNat 32 k) = true) →
      Completes (.ldw rv ra imm shift) s fun t => RegResult s t rv
        (s.byteAt a ++ s.byteAt (a + 1#32) ++ s.byteAt (a + 2#32) ++ s.byteAt (a + 3#32)) s.flags (s.pc + 4#32)) ∧
    (a.toNat % 2 = 0 → mapped s.config a = true → mapped s.config (a + 1#32) = true →
      (Completes (.ldhw rv ra imm shift) s fun t => RegResult s t rv
        ((s.byteAt a ++ s.byteAt (a + 1#32)).signExtend 32) s.flags (s.pc + 4#32)) ∧
      (Completes (.ldhwu rv ra imm shift) s fun t => RegResult s t rv
        (0#16 ++ (s.byteAt a ++ s.byteAt (a + 1#32))) s.flags (s.pc + 4#32))) ∧
    (mapped s.config a = true →
      (Completes (.ldb rv ra imm shift) s fun t => RegResult s t rv
        ((s.byteAt a).signExtend 32) s.flags (s.pc + 4#32)) ∧
      (Completes (.ldbu rv ra imm shift) s fun t => RegResult s t rv
        (0#24 ++ s.byteAt a) s.flags (s.pc + 4#32)))

/-- O35, tier 2. Every word of the row decodes to the instruction with its fields; for every address a that the
effective address gives, if a is a multiple of the size and its bytes are in MEM_MAP, the store completes with the low
4, 2 or 1 bytes of x[Rv] at a and upward, most significant first, every byte outside them as before, pc + 4, and every
register, every flag and the rest unchanged. (Formalises R136, R137, R138.) -/
def Obligations.StoresWriteTheirBytesAndNothingElse : Prop :=
  DecodesTo 0xFC030000#32 0x3C010000#32 (fun w => .stw (fieldRd w) (fieldRa w) (fieldImm12 w) (fieldMemShift w)) ∧
  DecodesTo 0xFC030000#32 0x34010000#32 (fun w => .sthw (fieldRd w) (fieldRa w) (fieldImm12 w) (fieldMemShift w)) ∧
  DecodesTo 0xFC030000#32 0x30010000#32 (fun w => .stb (fieldRd w) (fieldRa w) (fieldImm12 w) (fieldMemShift w)) ∧
  ∀ (s : State) (rv ra : RegIdx) (imm : BitVec 12) (shift : Nat) (a : Word), s.ea ra imm shift = a →
    (a.toNat % 4 = 0 → (∀ k, k < 4 → mapped s.config (a + BitVec.ofNat 32 k) = true) →
      Completes (.stw rv ra imm shift) s fun t => StoreResult s t a
        [(s.readReg rv).extractLsb' 24 8, (s.readReg rv).extractLsb' 16 8, (s.readReg rv).extractLsb' 8 8,
          (s.readReg rv).extractLsb' 0 8] (s.pc + 4#32)) ∧
    (a.toNat % 2 = 0 → mapped s.config a = true → mapped s.config (a + 1#32) = true →
      Completes (.sthw rv ra imm shift) s fun t => StoreResult s t a
        [(s.readReg rv).extractLsb' 8 8, (s.readReg rv).extractLsb' 0 8] (s.pc + 4#32)) ∧
    (mapped s.config a = true →
      Completes (.stb rv ra imm shift) s fun t => StoreResult s t a
        [(s.readReg rv).extractLsb' 0 8] (s.pc + 4#32))

/-- O36, tier 2. For every load and store i with its access size, base, Imm and shift, in every state: if the
effective address is no multiple of the size the outcome is the fault MisalignedAccess(ea); if it is and a byte of the
access is outside MEM_MAP, the fault AccessFault(ea); otherwise it completes, with every flag unchanged and with every
byte outside its access as before. On a fault there is no next state. The address uses the old x[Ra], also where Rv is
Ra. (Formalises R139.) -/
def Obligations.LoadsAndStoresFaultByAlignmentThenMap : Prop :=
  ∀ (s : State) (i : Instr) (w : Width) (ra : RegIdx) (imm : BitVec 12) (shift : Nat) (a : Word),
    i.access = some (w, ra, imm, shift) → s.readReg ra + displacement imm shift = a →
    (a.toNat % w.bytes ≠ 0 → exec i s = .fault (.misalignedAccess a)) ∧
    (a.toNat % w.bytes = 0 → (∃ k, k < w.bytes ∧ mapped s.config (a + BitVec.ofNat 32 k) = false) →
      exec i s = .fault (.accessFault a)) ∧
    (a.toNat % w.bytes = 0 → (∀ k, k < w.bytes → mapped s.config (a + BitVec.ofNat 32 k) = true) →
      Completes i s fun t => t.flags = s.flags ∧ t.pc = s.pc + 4#32 ∧
        ∀ b : Word, (∀ k, k < w.bytes → b ≠ a + BitVec.ofNat 32 k) → t.byteAt b = s.byteAt b)

/-- O37, tier 2. Every word of the row decodes to the instruction with its Imm; in every state it completes with pc
plus four times the signed Imm if its condition on the flags holds, else pc + 4, and every register, every flag, every
byte of memory and the rest unchanged. (Formalises R151, R152, R153, R154.) -/
def Obligations.ConditionalBranchesGoToTheirTargetIffTaken : Prop :=
  DecodesTo 0xFFFF0000#32 0x90030000#32 (fun w => .beq (fieldImm16 w)) ∧
  DecodesTo 0xFFFF0000#32 0x9C030000#32 (fun w => .bne (fieldImm16 w)) ∧
  DecodesTo 0xFFFF0000#32 0x98030000#32 (fun w => .bge (fieldImm16 w)) ∧
  DecodesTo 0xFFFF0000#32 0x94030000#32 (fun w => .blt (fieldImm16 w)) ∧
  ∀ (s : State) (imm : BitVec 16) (target : Word), target = s.pc + BitVec.ofInt 32 (imm.toInt * 4) →
    (Completes (.beq imm) s fun t => PcResult s t (if s.flags.z = true then target else s.pc + 4#32)) ∧
    (Completes (.bne imm) s fun t => PcResult s t (if s.flags.z = false then target else s.pc + 4#32)) ∧
    (Completes (.bge imm) s fun t => PcResult s t (if s.flags.n = s.flags.v then target else s.pc + 4#32)) ∧
    (Completes (.blt imm) s fun t => PcResult s t (if s.flags.n ≠ s.flags.v then target else s.pc + 4#32))

/-- O38, tier 2. Every word of the row decodes to the instruction with its fields; in every state J completes with pc
plus the signed Imm times 2^(shift + 2) modulo 2^32, JR with pc plus x[Ra] as it is, and every register, every flag,
every byte of memory and the rest unchanged. (Formalises R155, R156.) -/
def Obligations.RelativeJumpsAddTheirDisplacement : Prop :=
  DecodesTo 0xFFC30000#32 0x80030000#32 (fun w => .j (fieldImm16 w) (fieldJumpShift w)) ∧
  DecodesTo 0xFFC3FFFF#32 0x84020000#32 (fun w => .jr (fieldRa w)) ∧
  ∀ (s : State) (imm : BitVec 16) (shift : Nat) (ra : RegIdx),
    (Completes (.j imm shift) s fun t => PcResult s t (s.pc + BitVec.ofInt 32 (imm.toInt * 2 ^ (shift + 2)))) ∧
    (Completes (.jr ra) s fun t => PcResult s t (s.pc + s.readReg ra))

/-- O39, tier 2. Every word of the row decodes to the instruction with its fields; in every state JL completes with pc
plus the signed Imm times 2^(shift + 2), JLR with the old x[Ra] plus four times the signed Imm (also where Rd is Ra),
both with the address of the instruction after the jump in Rd, and every other register, every flag, every byte of
memory and the rest unchanged. (Formalises R157, R158.) -/
def Obligations.LinkingJumpsSaveTheReturnAddress : Prop :=
  DecodesTo 0xFC030000#32 0x88030000#32 (fun w => .jl (fieldRd w) (fieldImm16 w) (fieldJumpShift w)) ∧
  DecodesTo 0xFC030000#32 0x8C030000#32 (fun w => .jlr (fieldRd w) (fieldRa w) (fieldImm16 w)) ∧
  ∀ (s : State) (rd ra : RegIdx) (imm : BitVec 16) (shift : Nat),
    (Completes (.jl rd imm shift) s fun t =>
      RegResult s t rd (s.pc + 4#32) s.flags (s.pc + BitVec.ofInt 32 (imm.toInt * 2 ^ (shift + 2)))) ∧
    (Completes (.jlr rd ra imm) s fun t =>
      RegResult s t rd (s.pc + 4#32) s.flags (s.readReg ra + BitVec.ofInt 32 (imm.toInt * 4)))

/-- O40, tier 2. After JL Rlink completes, in any later state that still holds the link value in Rlink (whatever else
has changed), JLR Rt Rlink #0 completes at the address of the instruction after the JL and leaves the address after
itself in Rt, for every pair of registers. (Rests on 45_branch_jump.md R157, 45_branch_jump.md R158, 45_branch_jump.md
R159.) -/
def Obligations.ReturnThroughTheLinkRegisterComesBack : Prop :=
  ∀ (s : State) (rlink rt : RegIdx) (imm : BitVec 16) (shift : Nat),
    Completes (.jl rlink imm shift) s fun t => ∀ u : State, u.readReg rlink = t.readReg rlink →
      Completes (.jlr rt rlink 0#16) u fun v => v.pc = s.pc + 4#32 ∧ v.readReg rt = u.pc + 4#32

/-- O41, tier 2. Over every instruction and state: an instruction that is no branch or jump and not HALT, when it
completes, ends at pc + 4; a branch not taken too; a taken branch and J, JR, JL, JLR end at their target; HALT leaves
pc unchanged. (Rests on 10_state.md R16.) -/
def Obligations.OnlyControlTransfersLeaveTheSequence : Prop :=
  (∀ (i : Instr) (s t : State), i.transfersControl = false → i ≠ .halt → exec i s = .next t → t.pc = s.pc + 4#32) ∧
  (∀ (i : Instr) (s t : State) (imm : BitVec 16) (taken : Bool),
    (i = .beq imm ∧ taken = s.flags.z) ∨ (i = .bne imm ∧ taken = !s.flags.z) ∨
      (i = .bge imm ∧ taken = (s.flags.n == s.flags.v)) ∨ (i = .blt imm ∧ taken = (s.flags.n != s.flags.v)) →
    exec i s = .next t → t.pc = if taken then s.pc + wordOffset imm else s.pc + 4#32) ∧
  (∀ (s t : State) (rd ra : RegIdx) (imm : BitVec 16) (shift : Nat),
    (exec (.j imm shift) s = .next t → t.pc = s.pc + jumpOffset imm shift) ∧
    (exec (.jr ra) s = .next t → t.pc = s.pc + s.readReg ra) ∧
    (exec (.jl rd imm shift) s = .next t → t.pc = s.pc + jumpOffset imm shift) ∧
    (exec (.jlr rd ra imm) s = .next t → t.pc = s.readReg ra + wordOffset imm) ∧
    (exec .halt s = .next t → t.pc = s.pc))

/-- O42, tier 2. The instruction after the one at 0xFFFFFFFC is at 0; from an aligned pc every instruction but JR and
JLR ends at an aligned pc; JR and JLR end at one iff the register's value is a multiple of 4; they write a bad target
without a fault, and a running machine with such a pc faults MisalignedFetch(pc) at its next step. (Formalises R17.)
-/
def Obligations.OnlyRegisterJumpsCanMisalignThePc : Prop :=
  (∀ s : State, s.pc = 0xFFFFFFFC#32 → Completes .nop s fun t => t.pc = 0x00000000#32) ∧
  (∀ (i : Instr) (s t : State), s.pc.toNat % 4 = 0 → (∀ ra, i ≠ .jr ra) → (∀ rd ra imm, i ≠ .jlr rd ra imm) →
    exec i s = .next t → t.pc.toNat % 4 = 0) ∧
  (∀ (s : State) (rd ra : RegIdx) (imm : BitVec 16), s.pc.toNat % 4 = 0 →
    (Completes (.jr ra) s fun t => t.pc.toNat % 4 = 0 ↔ (s.readReg ra).toNat % 4 = 0) ∧
    (Completes (.jlr rd ra imm) s fun t => t.pc.toNat % 4 = 0 ↔ (s.readReg ra).toNat % 4 = 0)) ∧
  (∀ s : State, s.halted = false → s.pc.toNat % 4 ≠ 0 → step s = .fault (.misalignedFetch s.pc))

/-- O43, tier 2. On every machine with well-formed parameters the word ENC_NOP decodes to NOP, and no other word does
(the default is 0x00000000); in every state NOP completes at pc + 4 with every register, every flag, every byte of
memory and the halted latch unchanged. (Formalises R165.) -/
def Obligations.NopAdvancesThePcAndNothingElse : Prop :=
  (∀ (c : Config) (w : Word), c.wf = true → (decode c w = .ok .nop ↔ w = c.encNop)) ∧
  Config.defaults.encNop = 0x00000000#32 ∧
  ∀ s : State, Completes .nop s fun t => PcResult s t (s.pc + 4#32)

/-- O44, tier 2. On every machine with well-formed parameters the word ENC_HALT decodes to HALT and no other word does
(the default is 0x04000000); in every state HALT completes with halted = 1, the pc at the HALT, and all else
unchanged; and after any number of further steps the state is still exactly that one and the run has ended properly.
R25 says that a halted processor takes no further step; that step applied to a halted state answers next with the same
state is the model's choice (log 7, DESIGN CHOICE). (Rests on 10_state.md R25, 46_misc.md R166, 60_exceptions.md
R182.) -/
def Obligations.HaltStopsTheProcessorForEver : Prop :=
  (∀ (c : Config) (w : Word), c.wf = true → (decode c w = .ok .halt ↔ w = c.encHalt)) ∧
  Config.defaults.encHalt = 0x04000000#32 ∧
  (∀ s : State, Completes .halt s fun t =>
    t.halted = true ∧ SameRegs s t ∧ t.flags = s.flags ∧ t.pc = s.pc ∧ t.mem = s.mem ∧ t.config = s.config ∧
      t.powerUp = s.powerUp) ∧
  (∀ (s : State) (n : Nat), s.halted = true →
    step s = .next s ∧ (Run.start s).ticks n = ⟨s, .halted⟩)

/-- O45, tier 2. Over every state: if a step takes a running machine to a halted state, the word it fetched decodes to
HALT, and the state is as before but for the latch. (Rests on 10_state.md R25, 60_exceptions.md R182.) -/
def Obligations.OnlyHaltHaltsTheMachine : Prop :=
  ∀ s t : State, step s = .next t → s.halted = false → t.halted = true →
    (∃ w, fetch s = .ok w ∧ decode s.config w = .ok .halt) ∧ t = s.halt

/-- O46, tier 2. For every running state: a pc that is no multiple of 4 is MisalignedFetch; else a byte of the word
outside MEM_MAP is AccessFault(pc); else a word no row matches is IllegalInstruction; else, for a load or store, an
effective address that is no multiple of the size is MisalignedAccess(ea); else a byte of the access outside MEM_MAP
is AccessFault(ea); each clause whatever later conditions hold. (Formalises R173.) -/
def Obligations.StepReportsTheFirstFaultInOrder : Prop :=
  ∀ s : State, s.halted = false →
    (s.pc.toNat % 4 ≠ 0 → step s = .fault (.misalignedFetch s.pc)) ∧
    (s.pc.toNat % 4 = 0 → (∃ k, k < 4 ∧ mapped s.config (s.pc + BitVec.ofNat 32 k) = false) →
      step s = .fault (.accessFault s.pc)) ∧
    (∀ w, fetch s = .ok w → (∀ i, decode s.config w ≠ .ok i) → step s = .fault (.illegalInstruction s.pc w)) ∧
    (∀ (w : Word) (i : Instr) (n : Width) (ra : RegIdx) (imm : BitVec 12) (shift : Nat) (a : Word),
      fetch s = .ok w → decode s.config w = .ok i → i.access = some (n, ra, imm, shift) → s.ea ra imm shift = a →
      (a.toNat % n.bytes ≠ 0 → step s = .fault (.misalignedAccess a)) ∧
      (a.toNat % n.bytes = 0 → (∃ k, k < n.bytes ∧ mapped s.config (a + BitVec.ofNat 32 k) = false) →
        step s = .fault (.accessFault a)))

/-- O47, tier 2. When the step of a running run faults, the run keeps the state before the step, in which halted is 0
and pc is the faulting address, with the fault recorded; and a run with a fault recorded is the same after any number
of further steps, and never ends properly. (Formalises R172.) -/
def Obligations.FaultIsPreciseAndFinal : Prop :=
  (∀ (s : State) (f : Fault), step s = .fault f →
    s.halted = false ∧ ∀ n, (Run.start s).ticks (n + 1) = ⟨s, .faulted f⟩) ∧
  (∀ (r : Run) (f : Fault) (n : Nat), r.status = .faulted f → r.ticks n = r) ∧
  (∀ (s : State) (f : Fault), step s = .fault f → ¬ EndsProperly s)

/-- O48, tier 2. For every state, a step's fault is one of four: MisalignedFetch(pc) with pc no multiple of 4;
AccessFault with a byte outside MEM_MAP, carrying the pc for the fetch or the effective address of a load or store;
IllegalInstruction(pc, w) with w the fetched word and no row matching; MisalignedAccess(ea) of a load or store whose
effective address is no multiple of its size, which is 2 or 4. (Formalises R171.) -/
def Obligations.FaultsAreRaisedOnlyAsListed : Prop :=
  ∀ (s : State) (f : Fault), step s = .fault f →
    (f = .misalignedFetch s.pc ∧ s.pc.toNat % 4 ≠ 0) ∨
    (f = .accessFault s.pc ∧ ∃ k, k < 4 ∧ mapped s.config (s.pc + BitVec.ofNat 32 k) = false) ∨
    (∃ w, f = .illegalInstruction s.pc w ∧ fetch s = .ok w ∧ ∀ r ∈ s.config.rows, w &&& r.mask ≠ r.pattern) ∨
    (∃ w i n ra imm shift, fetch s = .ok w ∧ decode s.config w = .ok i ∧ i.access = some (n, ra, imm, shift) ∧
      ((f = .misalignedAccess (s.ea ra imm shift) ∧ n ≠ .byte ∧ (s.ea ra imm shift).toNat % n.bytes ≠ 0) ∨
       (f = .accessFault (s.ea ra imm shift) ∧
        ∃ k, k < n.bytes ∧ mapped s.config (s.ea ra imm shift + BitVec.ofNat 32 k) = false)))

/-- O49, tier 2. There is one mode: no step is refused; every instruction completes in every state unless it is a load
or store (whose faults are stated elsewhere); and every step of a machine answers a next state or one of the four
faults. (Rests on 60_exceptions.md R176, 60_exceptions.md R177, 40_arithmetic.md R100.) -/
def Obligations.NoInstructionIsRefused : Prop :=
  (∀ (s : State) (r : Refusal), step s ≠ .refused r) ∧
  (∀ (i : Instr) (s : State), i.access = none → ∃ t, exec i s = .next t) ∧
  (∀ s : State, SafeStep s ∨ ∃ f, step s = .fault f)

/-- O50, tier 1. If the machine runs, the pc is a multiple of 4 inside MEM_MAP and the four bytes there, read as the
decoder reads bytes, are an instruction i (with any bytes after), then the step is exec of i at that state; a halted
machine's step answers next with the same state, which is the model's choice for R25's "executes nothing" (log 7,
DESIGN CHOICE). The step adds nothing around exec: each instruction itself moves the pc. (Rests on 10_state.md R28,
10_state.md R25, 20_memory.md R35, 30_encoding.md R78.) -/
def Obligations.StepRunsTheDecodedInstruction : Prop :=
  (∀ (s : State) (i : Instr) (rest : List Byte), s.halted = false →
    s.pc.toNat % 4 = 0 → (∀ k, k < 4 → mapped s.config (s.pc + BitVec.ofNat 32 k) = true) →
    decodeBytes s.config (s.byteAt s.pc :: s.byteAt (s.pc + 1#32) :: s.byteAt (s.pc + 2#32) ::
      s.byteAt (s.pc + 3#32) :: rest) = .ok (i, rest) → step s = exec i s) ∧
  (∀ s : State, s.halted = true → step s = .next s)

/-- O51, tier 2. For every running state with an aligned pc inside MEM_MAP and every well-formed instruction of a
machine with well-formed parameters: with its word loaded at the pc the step is the execution of the instruction
there, and the load changes no byte but the four at the pc and nothing but memory. R192 only says that the words are
in place before the first step; that State.withFetchWord stands for the load, and that it changes memory only, is the
model's choice (log 9, DESIGN CHOICE). (Rests on 70_reset_and_hazards.md R192, 10_state.md R28.) -/
def Obligations.LoadedWordIsWhatTheNextStepRuns : Prop :=
  ∀ (s : State) (i : Instr), s.config.wf = true → i.wf = true → s.halted = false → aligned s.pc .word = true →
    mappedAccess s.config s.pc .word = true →
    step (s.withFetchWord 32 (encode s.config i).toNat) = exec i (s.withFetchWord 32 (encode s.config i).toNat) ∧
    (∀ b : Word, (∀ k, k < 4 → b ≠ s.pc + BitVec.ofNat 32 k) →
      (s.withFetchWord 32 (encode s.config i).toNat).byteAt b = s.byteAt b) ∧
    PcResult s ((s.withFetchWord 32 (encode s.config i).toNat).setMem s.mem) s.pc

/-- O52, tier 2. Over every instruction and state, when it completes: every register other than the one the table of
R13 says it writes is unchanged (Ra and Rb are never written as such); every byte of memory is unchanged unless it is
a store, and then every byte outside its access; the halted latch changes only by HALT (R25, R166). That the
parameters stand in State and never change is the model's choice (log 1, DESIGN CHOICE), and so is the power-up, the
model's own field (log 6, DESIGN CHOICE). (Rests on 10_state.md R12, 10_state.md R13, 20_memory.md R38, 10_state.md
R25, 46_misc.md R166.) -/
def Obligations.OnlyTheDestinationAndStoredBytesChange : Prop :=
  ∀ (i : Instr) (s t : State), exec i s = .next t →
    (∀ r : RegIdx, i.destination ≠ some r → t.readReg r = s.readReg r) ∧
    (i.stores = false → SameMemory s t) ∧
    (∀ w ra imm shift, i.access = some (w, ra, imm, shift) → ∀ a, s.ea ra imm shift = a →
      ∀ b : Word, (∀ k, k < w.bytes → b ≠ a + BitVec.ofNat 32 k) → t.byteAt b = s.byteAt b) ∧
    (i ≠ .halt → t.halted = s.halted) ∧ t.config = s.config ∧ t.powerUp = s.powerUp

/-- O53, tier 2. For every state and target: if fields are found for a branch (a J, a JL) at the state's pc, the taken
BEQ (the J, the JL) with them ends at the target; if none are found, no fields reach it; and a jump whose offset one
Imm with shift 0 can express gets shift 0. (Rests on 30_encoding.md R86, 30_encoding.md R75, 30_encoding.md R76.) -/
def Obligations.WhereResolvesToFieldsThatReachIt : Prop :=
  ∀ (s : State) (target : Word),
    (∀ imm, branchFields s.pc target = some imm → s.flags.z = true →
      Completes (.beq imm) s fun t => t.pc = target) ∧
    (branchFields s.pc target = none → ∀ imm, s.pc + wordOffset imm ≠ target) ∧
    (∀ imm shift, jumpFields s.pc target = some (imm, shift) → shift < 16 ∧
      (Completes (.j imm shift) s fun t => t.pc = target) ∧
      ∀ rd, Completes (.jl rd imm shift) s fun t => t.pc = target) ∧
    (jumpFields s.pc target = none → ∀ imm shift, shift < 16 → s.pc + jumpOffset imm shift ≠ target) ∧
    (∀ imm, s.pc + jumpOffset imm 0 = target → jumpFields s.pc target = some (imm, 0))

/-- O54, tier 2. If a store (STW, STHW or STB) completes with effective address a, then in every later state u whose
pc is a multiple of 4 inside MEM_MAP and whose four bytes there still read as right after the store, the fetch gives a
word each of whose bytes is the stored byte of x[Rv] where the store covers its address (in whole or in part), and the
byte that stood there before the store where it does not. (R45 advises to refuse a store into program text, and the
model gives it the effect the rule states, log 16.) (Formalises R45.) -/
def Obligations.FetchSeesTheBytesOfEveryStore : Prop :=
  ∀ (s t u : State) (i : Instr) (w : Width) (rv ra : RegIdx) (imm : BitVec 12) (shift : Nat) (a : Word),
    (i = .stw rv ra imm shift ∧ w = .word) ∨ (i = .sthw rv ra imm shift ∧ w = .half) ∨
      (i = .stb rv ra imm shift ∧ w = .byte) →
    s.ea ra imm shift = a → exec i s = .next t →
    u.pc.toNat % 4 = 0 → (∀ k, k < 4 → mapped u.config (u.pc + BitVec.ofNat 32 k) = true) →
    (∀ k, k < 4 → u.byteAt (u.pc + BitVec.ofNat 32 k) = t.byteAt (u.pc + BitVec.ofNat 32 k)) →
    ∃ v : Word, fetch u = .ok v ∧ ∀ k, k < 4 →
      (∀ j, j < w.bytes → u.pc + BitVec.ofNat 32 k = a + BitVec.ofNat 32 j →
        v.toNat / 2 ^ (8 * (3 - k)) % 256 = (s.readReg rv).toNat / 2 ^ (8 * (w.bytes - 1 - j)) % 256) ∧
      ((∀ j, j < w.bytes → u.pc + BitVec.ofNat 32 k ≠ a + BitVec.ofNat 32 j) →
        v.toNat / 2 ^ (8 * (3 - k)) % 256 = (s.byteAt (u.pc + BitVec.ofNat 32 k)).toNat)
end

