-- ==== Sys2Proof/Laws/Decode.lean ====
section
/-! SUPPORT. Decoding and encoding: where each format puts its fields, which bits a row's mask keeps of an encoded
word, the word back from its fields, that no word fits two rows, and that a word that fits a row decodes to it. -/

namespace Sys2Proof

/-! ## Register fields -/

@[simp] theorem regOf_regBits (r : RegIdx) : regOf (regBits r) = r := by
  apply Fin.ext
  simp [regOf, regBits]

@[simp] theorem regBits_regOf (b : BitVec 4) : regBits (regOf b) = b := by
  apply BitVec.eq_of_toNat_eq
  simp [regOf, regBits]

/-! ## The fields of an encoded word -/

@[simp] theorem encodeRRR_fieldRd (opcode : BitVec 6) (ext : BitVec 2) (rd ra rb : RegIdx) :
    fieldRd (encodeRRR opcode ext rd ra rb) = rd := by
  simp only [fieldRd, encodeRRR]
  simp (disch := omega) only [BitVec.extractLsb'_append_eq_of_le, BitVec.extractLsb'_append_eq_of_add_le]
  simp

@[simp] theorem encodeRRR_fieldRa (opcode : BitVec 6) (ext : BitVec 2) (rd ra rb : RegIdx) :
    fieldRa (encodeRRR opcode ext rd ra rb) = ra := by
  simp only [fieldRa, encodeRRR]
  simp (disch := omega) only [BitVec.extractLsb'_append_eq_of_le, BitVec.extractLsb'_append_eq_of_add_le]
  simp

@[simp] theorem encodeRRR_fieldRb (opcode : BitVec 6) (ext : BitVec 2) (rd ra rb : RegIdx) :
    fieldRb (encodeRRR opcode ext rd ra rb) = rb := by
  simp only [fieldRb, encodeRRR]
  simp (disch := omega) only [BitVec.extractLsb'_append_eq_of_add_le]
  simp

@[simp] theorem encodeRRI_fieldRd (opcode : BitVec 6) (ext : BitVec 2) (rd ra : RegIdx) (imm : BitVec 16) :
    fieldRd (encodeRRI opcode ext rd ra imm) = rd := by
  simp only [fieldRd, encodeRRI]
  simp (disch := omega) only [BitVec.extractLsb'_append_eq_of_le, BitVec.extractLsb'_append_eq_of_add_le]
  simp

@[simp] theorem encodeRRI_fieldRa (opcode : BitVec 6) (ext : BitVec 2) (rd ra : RegIdx) (imm : BitVec 16) :
    fieldRa (encodeRRI opcode ext rd ra imm) = ra := by
  simp only [fieldRa, encodeRRI]
  simp (disch := omega) only [BitVec.extractLsb'_append_eq_of_le, BitVec.extractLsb'_append_eq_of_add_le]
  simp

@[simp] theorem encodeRRI_fieldImm16 (opcode : BitVec 6) (ext : BitVec 2) (rd ra : RegIdx) (imm : BitVec 16) :
    fieldImm16 (encodeRRI opcode ext rd ra imm) = imm := by
  simp only [fieldImm16, encodeRRI]
  simp (disch := omega) only [BitVec.extractLsb'_append_eq_of_add_le]
  simp

@[simp] theorem encodeRRi_fieldRd (opcode : BitVec 6) (ext : BitVec 2) (rd ra : RegIdx) (amount : Nat) :
    fieldRd (encodeRRi opcode ext rd ra amount) = rd := by
  simp only [fieldRd, encodeRRi]
  simp (disch := omega) only [BitVec.extractLsb'_append_eq_of_le, BitVec.extractLsb'_append_eq_of_add_le]
  simp

@[simp] theorem encodeRRi_fieldRa (opcode : BitVec 6) (ext : BitVec 2) (rd ra : RegIdx) (amount : Nat) :
    fieldRa (encodeRRi opcode ext rd ra amount) = ra := by
  simp only [fieldRa, encodeRRi]
  simp (disch := omega) only [BitVec.extractLsb'_append_eq_of_le, BitVec.extractLsb'_append_eq_of_add_le]
  simp

theorem encodeRRi_fieldAmount (opcode : BitVec 6) (ext : BitVec 2) (rd ra : RegIdx) (amount : Nat) (h : amount < 32) :
    fieldAmount (encodeRRi opcode ext rd ra amount) = amount := by
  simp only [fieldAmount, encodeRRi]
  simp (disch := omega) only [BitVec.extractLsb'_append_eq_of_add_le]
  simp [Nat.mod_eq_of_lt h]

@[simp] theorem encodeR_R_fieldRd (opcode : BitVec 6) (ext : BitVec 2) (rd rb : RegIdx) :
    fieldRd (encodeR_R opcode ext rd rb) = rd := by
  simp only [fieldRd, encodeR_R]
  simp (disch := omega) only [BitVec.extractLsb'_append_eq_of_le, BitVec.extractLsb'_append_eq_of_add_le]
  simp

@[simp] theorem encodeR_R_fieldRb (opcode : BitVec 6) (ext : BitVec 2) (rd rb : RegIdx) :
    fieldRb (encodeR_R opcode ext rd rb) = rb := by
  simp only [fieldRb, encodeR_R]
  simp (disch := omega) only [BitVec.extractLsb'_append_eq_of_add_le]
  simp

@[simp] theorem encodeR_I_fieldRd (opcode : BitVec 6) (ext : BitVec 2) (rd : RegIdx) (imm : BitVec 16) :
    fieldRd (encodeR_I opcode ext rd imm) = rd := by
  simp only [fieldRd, encodeR_I]
  simp (disch := omega) only [BitVec.extractLsb'_append_eq_of_le, BitVec.extractLsb'_append_eq_of_add_le]
  simp

@[simp] theorem encodeR_I_fieldImm16 (opcode : BitVec 6) (ext : BitVec 2) (rd : RegIdx) (imm : BitVec 16) :
    fieldImm16 (encodeR_I opcode ext rd imm) = imm := by
  simp only [fieldImm16, encodeR_I]
  simp (disch := omega) only [BitVec.extractLsb'_append_eq_of_add_le]
  simp

@[simp] theorem encodeRRSI_fieldRd (opcode : BitVec 6) (ext : BitVec 2) (rv ra : RegIdx) (imm : BitVec 12) (shift : Nat) :
    fieldRd (encodeRRSI opcode ext rv ra imm shift) = rv := by
  simp only [fieldRd, encodeRRSI]
  simp (disch := omega) only [BitVec.extractLsb'_append_eq_of_le, BitVec.extractLsb'_append_eq_of_add_le]
  simp

@[simp] theorem encodeRRSI_fieldRa (opcode : BitVec 6) (ext : BitVec 2) (rv ra : RegIdx) (imm : BitVec 12) (shift : Nat) :
    fieldRa (encodeRRSI opcode ext rv ra imm shift) = ra := by
  simp only [fieldRa, encodeRRSI]
  simp (disch := omega) only [BitVec.extractLsb'_append_eq_of_le, BitVec.extractLsb'_append_eq_of_add_le]
  simp

theorem encodeRRSI_fieldMemShift (opcode : BitVec 6) (ext : BitVec 2) (rv ra : RegIdx) (imm : BitVec 12) (shift : Nat) (h : shift < 16) :
    fieldMemShift (encodeRRSI opcode ext rv ra imm shift) = shift := by
  simp only [fieldMemShift, encodeRRSI]
  simp (disch := omega) only [BitVec.extractLsb'_append_eq_of_le, BitVec.extractLsb'_append_eq_of_add_le]
  simp [Nat.mod_eq_of_lt h]

@[simp] theorem encodeRRSI_fieldImm12 (opcode : BitVec 6) (ext : BitVec 2) (rv ra : RegIdx) (imm : BitVec 12) (shift : Nat) :
    fieldImm12 (encodeRRSI opcode ext rv ra imm shift) = imm := by
  simp only [fieldImm12, encodeRRSI]
  simp (disch := omega) only [BitVec.extractLsb'_append_eq_of_add_le]
  simp

@[simp] theorem encodeBranch_fieldImm16 (opcode : BitVec 6) (ext : BitVec 2) (imm : BitVec 16) :
    fieldImm16 (encodeBranch opcode ext imm) = imm := by
  simp only [fieldImm16, encodeBranch]
  simp (disch := omega) only [BitVec.extractLsb'_append_eq_of_add_le]
  simp

theorem encodeJ_fieldJumpShift (imm : BitVec 16) (shift : Nat) (h : shift < 16) :
    fieldJumpShift (encodeJ imm shift) = shift := by
  simp only [fieldJumpShift, encodeJ]
  simp (disch := omega) only [BitVec.extractLsb'_append_eq_of_le, BitVec.extractLsb'_append_eq_of_add_le]
  simp [Nat.mod_eq_of_lt h]

@[simp] theorem encodeJ_fieldImm16 (imm : BitVec 16) (shift : Nat) :
    fieldImm16 (encodeJ imm shift) = imm := by
  simp only [fieldImm16, encodeJ]
  simp (disch := omega) only [BitVec.extractLsb'_append_eq_of_add_le]
  simp

@[simp] theorem encodeJR_fieldRa (ra : RegIdx) :
    fieldRa (encodeJR ra) = ra := by
  simp only [fieldRa, encodeJR]
  simp (disch := omega) only [BitVec.extractLsb'_append_eq_of_le, BitVec.extractLsb'_append_eq_of_add_le]
  simp

@[simp] theorem encodeJL_fieldRd (rd : RegIdx) (imm : BitVec 16) (shift : Nat) :
    fieldRd (encodeJL rd imm shift) = rd := by
  simp only [fieldRd, encodeJL]
  simp (disch := omega) only [BitVec.extractLsb'_append_eq_of_le, BitVec.extractLsb'_append_eq_of_add_le]
  simp

theorem encodeJL_fieldJumpShift (rd : RegIdx) (imm : BitVec 16) (shift : Nat) (h : shift < 16) :
    fieldJumpShift (encodeJL rd imm shift) = shift := by
  simp only [fieldJumpShift, encodeJL]
  simp (disch := omega) only [BitVec.extractLsb'_append_eq_of_le, BitVec.extractLsb'_append_eq_of_add_le]
  simp [Nat.mod_eq_of_lt h]

@[simp] theorem encodeJL_fieldImm16 (rd : RegIdx) (imm : BitVec 16) (shift : Nat) :
    fieldImm16 (encodeJL rd imm shift) = imm := by
  simp only [fieldImm16, encodeJL]
  simp (disch := omega) only [BitVec.extractLsb'_append_eq_of_add_le]
  simp

/-! ## What a row's mask keeps of an encoded word -/

theorem encodeRRR_masked (opcode : BitVec 6) (ext : BitVec 2) (rd ra rb : RegIdx) :
    encodeRRR opcode ext rd ra rb &&& 0xFC03FFF0#32 = opcode ++ 0#4 ++ 0#4 ++ ext ++ 0#12 ++ 0#4 := by
  change ((opcode ++ regBits rd ++ regBits ra ++ ext ++ 0#12 ++ regBits rb) &&&
    (BitVec.allOnes 6 ++ 0#4 ++ 0#4 ++ BitVec.allOnes 2 ++ BitVec.allOnes 12 ++ 0#4) : BitVec (6 + 4 + 4 + 2 + 12 + 4)) = _
  simp only [BitVec.and_append, BitVec.and_allOnes, BitVec.and_zero]

theorem encodeRRI_masked (opcode : BitVec 6) (ext : BitVec 2) (rd ra : RegIdx) (imm : BitVec 16) :
    encodeRRI opcode ext rd ra imm &&& 0xFC030000#32 = opcode ++ 0#4 ++ 0#4 ++ ext ++ 0#16 := by
  change ((opcode ++ regBits rd ++ regBits ra ++ ext ++ imm) &&&
    (BitVec.allOnes 6 ++ 0#4 ++ 0#4 ++ BitVec.allOnes 2 ++ 0#16) : BitVec (6 + 4 + 4 + 2 + 16)) = _
  simp only [BitVec.and_append, BitVec.and_allOnes, BitVec.and_zero]

theorem encodeRRi_masked (opcode : BitVec 6) (ext : BitVec 2) (rd ra : RegIdx) (amount : Nat) :
    encodeRRi opcode ext rd ra amount &&& 0xFC03FFE0#32 = opcode ++ 0#4 ++ 0#4 ++ ext ++ 0#11 ++ 0#5 := by
  change ((opcode ++ regBits rd ++ regBits ra ++ ext ++ 0#11 ++ BitVec.ofNat 5 amount) &&&
    (BitVec.allOnes 6 ++ 0#4 ++ 0#4 ++ BitVec.allOnes 2 ++ BitVec.allOnes 11 ++ 0#5) : BitVec (6 + 4 + 4 + 2 + 11 + 5)) = _
  simp only [BitVec.and_append, BitVec.and_allOnes, BitVec.and_zero]

theorem encodeR_R_masked (opcode : BitVec 6) (ext : BitVec 2) (rd rb : RegIdx) :
    encodeR_R opcode ext rd rb &&& 0xFC3FFFF0#32 = opcode ++ 0#4 ++ 0#4 ++ ext ++ 0#12 ++ 0#4 := by
  change ((opcode ++ regBits rd ++ 0#4 ++ ext ++ 0#12 ++ regBits rb) &&&
    (BitVec.allOnes 6 ++ 0#4 ++ BitVec.allOnes 4 ++ BitVec.allOnes 2 ++ BitVec.allOnes 12 ++ 0#4) : BitVec (6 + 4 + 4 + 2 + 12 + 4)) = _
  simp only [BitVec.and_append, BitVec.and_allOnes, BitVec.and_zero]

theorem encodeR_I_masked (opcode : BitVec 6) (ext : BitVec 2) (rd : RegIdx) (imm : BitVec 16) :
    encodeR_I opcode ext rd imm &&& 0xFC3F0000#32 = opcode ++ 0#4 ++ 0#4 ++ ext ++ 0#16 := by
  change ((opcode ++ regBits rd ++ 0#4 ++ ext ++ imm) &&&
    (BitVec.allOnes 6 ++ 0#4 ++ BitVec.allOnes 4 ++ BitVec.allOnes 2 ++ 0#16) : BitVec (6 + 4 + 4 + 2 + 16)) = _
  simp only [BitVec.and_append, BitVec.and_allOnes, BitVec.and_zero]

theorem encodeRRSI_masked (opcode : BitVec 6) (ext : BitVec 2) (rv ra : RegIdx) (imm : BitVec 12) (shift : Nat) :
    encodeRRSI opcode ext rv ra imm shift &&& 0xFC030000#32 = opcode ++ 0#4 ++ 0#4 ++ ext ++ 0#4 ++ 0#12 := by
  change ((opcode ++ regBits rv ++ regBits ra ++ ext ++ BitVec.ofNat 4 shift ++ imm) &&&
    (BitVec.allOnes 6 ++ 0#4 ++ 0#4 ++ BitVec.allOnes 2 ++ 0#4 ++ 0#12) : BitVec (6 + 4 + 4 + 2 + 4 + 12)) = _
  simp only [BitVec.and_append, BitVec.and_allOnes, BitVec.and_zero]

theorem encodeBranch_masked (opcode : BitVec 6) (ext : BitVec 2) (imm : BitVec 16) :
    encodeBranch opcode ext imm &&& 0xFFFF0000#32 = opcode ++ 0#4 ++ 0#4 ++ ext ++ 0#16 := by
  change ((opcode ++ 0#4 ++ 0#4 ++ ext ++ imm) &&&
    (BitVec.allOnes 6 ++ BitVec.allOnes 4 ++ BitVec.allOnes 4 ++ BitVec.allOnes 2 ++ 0#16) : BitVec (6 + 4 + 4 + 2 + 16)) = _
  simp only [BitVec.and_append, BitVec.and_allOnes, BitVec.and_zero]

theorem encodeJ_masked (imm : BitVec 16) (shift : Nat) :
    encodeJ imm shift &&& 0xFFC30000#32 = 0b100000#6 ++ 0#4 ++ 0#4 ++ 0b11#2 ++ 0#16 := by
  change ((0b100000#6 ++ 0#4 ++ BitVec.ofNat 4 shift ++ 0b11#2 ++ imm) &&&
    (BitVec.allOnes 6 ++ BitVec.allOnes 4 ++ 0#4 ++ BitVec.allOnes 2 ++ 0#16) : BitVec (6 + 4 + 4 + 2 + 16)) = _
  simp only [BitVec.and_append, BitVec.and_allOnes, BitVec.and_zero]

theorem encodeJR_masked (ra : RegIdx) :
    encodeJR ra &&& 0xFFC3FFFF#32 = 0b100001#6 ++ 0#4 ++ 0#4 ++ 0b10#2 ++ 0#16 := by
  change ((0b100001#6 ++ 0#4 ++ regBits ra ++ 0b10#2 ++ 0#16) &&&
    (BitVec.allOnes 6 ++ BitVec.allOnes 4 ++ 0#4 ++ BitVec.allOnes 2 ++ BitVec.allOnes 16) : BitVec (6 + 4 + 4 + 2 + 16)) = _
  simp only [BitVec.and_append, BitVec.and_allOnes, BitVec.and_zero]

theorem encodeJL_masked (rd : RegIdx) (imm : BitVec 16) (shift : Nat) :
    encodeJL rd imm shift &&& 0xFC030000#32 = 0b100010#6 ++ 0#4 ++ 0#4 ++ 0b11#2 ++ 0#16 := by
  change ((0b100010#6 ++ regBits rd ++ BitVec.ofNat 4 shift ++ 0b11#2 ++ imm) &&&
    (BitVec.allOnes 6 ++ 0#4 ++ 0#4 ++ BitVec.allOnes 2 ++ 0#16) : BitVec (6 + 4 + 4 + 2 + 16)) = _
  simp only [BitVec.and_append, BitVec.and_allOnes, BitVec.and_zero]

/-! ## A word from its fields -/

/-- A field that the mask keeps whole is the pattern's field. -/
theorem field_of_masked {w m p : Word} (h : w &&& m = p) {s l : Nat} {v : BitVec l}
    (hm : m.extractLsb' s l = BitVec.allOnes l) (hp : p.extractLsb' s l = v) : w.extractLsb' s l = v := by
  rw [← hp, ← h, BitVec.extractLsb'_and, hm, BitVec.and_allOnes]

/-- Fields side by side, as a number. -/
theorem append_toNat {n m : Nat} (a : BitVec n) (b : BitVec m) : (a ++ b).toNat = a.toNat * 2 ^ m + b.toNat := by
  rw [BitVec.toNat_append, Nat.shiftLeft_eq, Nat.mul_comm]
  exact (Nat.two_pow_add_eq_or_of_lt b.isLt _).symm

section OfFields

variable {w : Word} {op : BitVec 6} {ext : BitVec 2} (h1 : w.extractLsb' 26 6 = op) (h2 : w.extractLsb' 16 2 = ext)
include h1 h2

theorem encodeRRR_of_fields (h3 : w.extractLsb' 4 12 = 0#12) :
    encodeRRR op ext (fieldRd w) (fieldRa w) (fieldRb w) = w := by
  simp only [encodeRRR, fieldRd, fieldRa, fieldRb, regBits_regOf, ← h1, ← h2, ← h3]
  repeat rw [BitVec.extractLsb'_append_extractLsb'_eq_extractLsb' (by rfl)]
  simp

theorem encodeRRI_of_fields : encodeRRI op ext (fieldRd w) (fieldRa w) (fieldImm16 w) = w := by
  simp only [encodeRRI, fieldRd, fieldRa, fieldImm16, regBits_regOf, ← h1, ← h2]
  repeat rw [BitVec.extractLsb'_append_extractLsb'_eq_extractLsb' (by rfl)]
  simp

theorem encodeRRi_of_fields (h3 : w.extractLsb' 5 11 = 0#11) :
    encodeRRi op ext (fieldRd w) (fieldRa w) (fieldAmount w) = w := by
  simp only [encodeRRi, fieldRd, fieldRa, fieldAmount, BitVec.ofNat_toNat, BitVec.setWidth_eq, regBits_regOf, ← h1,
    ← h2, ← h3]
  repeat rw [BitVec.extractLsb'_append_extractLsb'_eq_extractLsb' (by rfl)]
  simp

theorem encodeR_R_of_fields (h3 : w.extractLsb' 4 12 = 0#12) (h4 : w.extractLsb' 18 4 = 0#4) :
    encodeR_R op ext (fieldRd w) (fieldRb w) = w := by
  simp only [encodeR_R, fieldRd, fieldRb, regBits_regOf, ← h1, ← h2, ← h3, ← h4]
  repeat rw [BitVec.extractLsb'_append_extractLsb'_eq_extractLsb' (by rfl)]
  simp

theorem encodeR_I_of_fields (h4 : w.extractLsb' 18 4 = 0#4) : encodeR_I op ext (fieldRd w) (fieldImm16 w) = w := by
  simp only [encodeR_I, fieldRd, fieldImm16, regBits_regOf, ← h1, ← h2, ← h4]
  repeat rw [BitVec.extractLsb'_append_extractLsb'_eq_extractLsb' (by rfl)]
  simp

theorem encodeRRSI_of_fields : encodeRRSI op ext (fieldRd w) (fieldRa w) (fieldImm12 w) (fieldMemShift w) = w := by
  simp only [encodeRRSI, fieldRd, fieldRa, fieldImm12, fieldMemShift, BitVec.ofNat_toNat, BitVec.setWidth_eq,
    regBits_regOf, ← h1, ← h2]
  repeat rw [BitVec.extractLsb'_append_extractLsb'_eq_extractLsb' (by rfl)]
  simp

theorem encodeBranch_of_fields (h3 : w.extractLsb' 22 4 = 0#4) (h4 : w.extractLsb' 18 4 = 0#4) :
    encodeBranch op ext (fieldImm16 w) = w := by
  unfold encodeBranch
  conv => lhs; lhs; lhs; lhs; rhs; rw [← h3]
  conv => lhs; lhs; lhs; rhs; rw [← h4]
  simp only [fieldImm16, ← h1, ← h2]
  repeat rw [BitVec.extractLsb'_append_extractLsb'_eq_extractLsb' (by rfl)]
  simp

end OfFields

theorem encodeJ_of_fields {w : Word} (h1 : w.extractLsb' 26 6 = 0b100000#6) (h2 : w.extractLsb' 16 2 = 0b11#2)
    (h4 : w.extractLsb' 22 4 = 0#4) : encodeJ (fieldImm16 w) (fieldJumpShift w) = w := by
  simp only [encodeJ, fieldImm16, fieldJumpShift, BitVec.ofNat_toNat, BitVec.setWidth_eq, ← h1, ← h2, ← h4]
  repeat rw [BitVec.extractLsb'_append_extractLsb'_eq_extractLsb' (by rfl)]
  simp

theorem encodeJR_of_fields {w : Word} (h1 : w.extractLsb' 26 6 = 0b100001#6) (h2 : w.extractLsb' 16 2 = 0b10#2)
    (h3 : w.extractLsb' 0 16 = 0#16) (h4 : w.extractLsb' 22 4 = 0#4) : encodeJR (fieldRa w) = w := by
  simp only [encodeJR, fieldRa, regBits_regOf, ← h1, ← h2, ← h3, ← h4]
  repeat rw [BitVec.extractLsb'_append_extractLsb'_eq_extractLsb' (by rfl)]
  simp

theorem encodeJL_of_fields {w : Word} (h1 : w.extractLsb' 26 6 = 0b100010#6) (h2 : w.extractLsb' 16 2 = 0b11#2) :
    encodeJL (fieldRd w) (fieldImm16 w) (fieldJumpShift w) = w := by
  simp only [encodeJL, fieldRd, fieldImm16, fieldJumpShift, regBits_regOf, BitVec.ofNat_toNat, BitVec.setWidth_eq,
    ← h1, ← h2]
  repeat rw [BitVec.extractLsb'_append_extractLsb'_eq_extractLsb' (by rfl)]
  simp

/-! ## No word fits two rows -/

/-- Two rows disagree at a bit that both fix. -/
def OpRow.Disjoint (r q : OpRow) : Prop := (r.pattern ^^^ q.pattern) &&& r.mask &&& q.mask ≠ 0#32

theorem OpRow.fits_iff (r : OpRow) (w : Word) : r.fits w = true ↔ w &&& r.mask = r.pattern := by
  simp [OpRow.fits]

/-- A word that fits two rows agrees with both at every bit that both fix. -/
theorem OpRow.Disjoint.not_fits {r q : OpRow} (h : r.Disjoint q) {w : Word} (hr : r.fits w = true) :
    q.fits w = false := by
  rw [OpRow.fits_iff] at hr
  refine Bool.eq_false_iff.2 fun hq => h ?_
  rw [OpRow.fits_iff] at hq
  rw [← hr, ← hq]
  ext i hi
  simp only [BitVec.getElem_and, BitVec.getElem_xor, BitVec.getElem_zero]
  cases w[i] <;> cases r.mask[i] <;> cases q.mask[i] <;> simp

/-- The rows of the opcode map are pairwise disjoint (R78). -/
theorem opcodeTable_disjoint : opcodeTable.Pairwise OpRow.Disjoint := by
  unfold OpRow.Disjoint
  decide

/-- In a list of pairwise disjoint rows, the row a word fits is the one that is found. -/
theorem find?_row {rows : List OpRow} (h : rows.Pairwise OpRow.Disjoint) {r : OpRow} (hr : r ∈ rows) {w : Word}
    (hw : r.fits w = true) : rows.find? (·.fits w) = some r := by
  induction rows with
  | nil => simp at hr
  | cons q rows ih =>
    obtain ⟨hq, hrows⟩ := List.pairwise_cons.1 h
    rcases List.mem_cons.1 hr with rfl | hr
    · simp [hw]
    · have : q.fits w = false := by
        refine Bool.eq_false_iff.2 fun hqw => ?_
        simp [(hq r hr).not_fits hqw] at hw
      simp [this, ih hrows hr]

/-- A word that fits a row of the opcode map decodes to it, on every machine. -/
theorem decode_of_opcodeTable (c : Config) {r : OpRow} (hr : r ∈ opcodeTable) {w : Word} (hw : r.fits w = true) :
    decode c w = .ok (r.build w) := by
  simp [decode, Config.rows, List.find?_append, find?_row opcodeTable_disjoint hr hw]

/-- What well-formed parameters are (R66). -/
theorem Config.wf_iff (c : Config) : c.wf = true ↔ c.encNop ≠ c.encHalt ∧
    (∀ r ∈ opcodeTable, r.fits c.encNop = false) ∧ (∀ r ∈ opcodeTable, r.fits c.encHalt = false) := by
  simp [Config.wf, and_assoc]

/-- A row with the mask 0xFFFFFFFF is fitted by its pattern alone (R66). -/
theorem fits_whole_word (m : String) (p w : Word) (b : Word → Instr) :
    OpRow.fits ⟨m, p, 0xFFFFFFFF#32, b⟩ w = (w == p) := by
  have : w &&& 0xFFFFFFFF#32 = w := BitVec.and_allOnes
  simp only [OpRow.fits, this]

/-- With well-formed parameters a word that fits a row of the machine, NOP's and HALT's among them, decodes to it. -/
theorem decode_of_row {c : Config} (hc : c.wf = true) {r : OpRow} (hr : r ∈ c.rows) {w : Word} (hw : r.fits w = true) :
    decode c w = .ok (r.build w) := by
  obtain ⟨hne, hnop, hhalt⟩ := (Config.wf_iff c).1 hc
  simp only [Config.rows, List.mem_append, List.mem_cons, List.not_mem_nil, or_false] at hr
  rcases hr with hr | rfl | rfl
  · exact decode_of_opcodeTable c hr hw
  · rw [fits_whole_word, beq_iff_eq] at hw
    subst hw
    have : opcodeTable.find? (·.fits c.encNop) = none := by simpa [List.find?_eq_none] using hnop
    simp [decode, Config.rows, List.find?_append, this, fits_whole_word]
  · rw [fits_whole_word, beq_iff_eq] at hw
    subst hw
    have : opcodeTable.find? (·.fits c.encHalt) = none := by simpa [List.find?_eq_none] using hhalt
    simp [decode, Config.rows, List.find?_append, this, fits_whole_word, hne.symm]

/-- A decoded instruction was built by a row of the machine that the word fits. -/
theorem row_of_decode {c : Config} {w : Word} {i : Instr} (h : decode c w = .ok i) :
    ∃ r ∈ c.rows, r.fits w = true ∧ i = r.build w := by
  unfold decode at h
  split at h
  · rename_i r hr
    exact ⟨r, List.mem_of_find?_eq_some hr, by simpa using List.find?_some hr, by simpa using h.symm⟩
  · cases h

/-- A word that fits no row of the machine is rejected. -/
theorem decode_of_no_row {c : Config} {w : Word} (h : ∀ r ∈ c.rows, r.fits w = false) :
    decode c w = .error (rejectOf w) := by
  have : c.rows.find? (·.fits w) = none := by simpa [List.find?_eq_none] using h
  simp [decode, this]

/-- The default parameters are well formed (R66). -/
theorem defaults_wf : Config.defaults.wf = true := by decide

/-! ## Bytes of a word -/

/-- A word is the word of its bytes. -/
@[simp] theorem wordOfBytes_bytes (w : Word) : wordOfBytes (w.extractLsb' 24 8) (w.extractLsb' 16 8)
    (w.extractLsb' 8 8) (w.extractLsb' 0 8) = w := by
  rw [wordOfBytes, BitVec.extractLsb'_append_extractLsb'_eq_extractLsb' (by rfl),
    BitVec.extractLsb'_append_extractLsb'_eq_extractLsb' (by rfl),
    BitVec.extractLsb'_append_extractLsb'_eq_extractLsb' (by rfl)]
  simp

/-- Bytes laid out as the hardware stores a word decode as the word. -/
theorem decodeBytes_bytesOfWord (c : Config) (w : Word) (rest : List Byte) :
    decodeBytes c (bytesOfWord w ++ rest) =
      match decode c w with
      | .ok i => .ok (i, rest)
      | .error e => .error e := by
  cases h : decode c w <;> simp [bytesOfWord, decodeBytes, h]

end Sys2Proof
end

