-- ==== Sys2Proof/Laws/State.lean ====
section
/-! SUPPORT. The small lemmas of State: one per field and update, so that no proof unfolds a record update; reading a
register and a byte after each update; the values after reset. -/

namespace Sys2Proof.Machine

section Fields

variable (s : State)

@[simp] theorem State.writeReg_regs (r : RegIdx) (v : Word) : (s.writeReg r v).regs = s.regs.set r.val v r.isLt := rfl
@[simp] theorem State.writeReg_pc (r : RegIdx) (v : Word) : (s.writeReg r v).pc = s.pc := rfl
@[simp] theorem State.writeReg_flags (r : RegIdx) (v : Word) : (s.writeReg r v).flags = s.flags := rfl
@[simp] theorem State.writeReg_halted (r : RegIdx) (v : Word) : (s.writeReg r v).halted = s.halted := rfl
@[simp] theorem State.writeReg_mem (r : RegIdx) (v : Word) : (s.writeReg r v).mem = s.mem := rfl
@[simp] theorem State.writeReg_config (r : RegIdx) (v : Word) : (s.writeReg r v).config = s.config := rfl
@[simp] theorem State.writeReg_powerUp (r : RegIdx) (v : Word) : (s.writeReg r v).powerUp = s.powerUp := rfl

@[simp] theorem State.setFlags_regs (f : Flags) : (s.setFlags f).regs = s.regs := rfl
@[simp] theorem State.setFlags_pc (f : Flags) : (s.setFlags f).pc = s.pc := rfl
@[simp] theorem State.setFlags_flags (f : Flags) : (s.setFlags f).flags = f := rfl
@[simp] theorem State.setFlags_halted (f : Flags) : (s.setFlags f).halted = s.halted := rfl
@[simp] theorem State.setFlags_mem (f : Flags) : (s.setFlags f).mem = s.mem := rfl
@[simp] theorem State.setFlags_config (f : Flags) : (s.setFlags f).config = s.config := rfl
@[simp] theorem State.setFlags_powerUp (f : Flags) : (s.setFlags f).powerUp = s.powerUp := rfl

@[simp] theorem State.setPc_regs (p : Word) : (s.setPc p).regs = s.regs := rfl
@[simp] theorem State.setPc_pc (p : Word) : (s.setPc p).pc = p := rfl
@[simp] theorem State.setPc_flags (p : Word) : (s.setPc p).flags = s.flags := rfl
@[simp] theorem State.setPc_halted (p : Word) : (s.setPc p).halted = s.halted := rfl
@[simp] theorem State.setPc_mem (p : Word) : (s.setPc p).mem = s.mem := rfl
@[simp] theorem State.setPc_config (p : Word) : (s.setPc p).config = s.config := rfl
@[simp] theorem State.setPc_powerUp (p : Word) : (s.setPc p).powerUp = s.powerUp := rfl

@[simp] theorem State.halt_regs : s.halt.regs = s.regs := rfl
@[simp] theorem State.halt_pc : s.halt.pc = s.pc := rfl
@[simp] theorem State.halt_flags : s.halt.flags = s.flags := rfl
@[simp] theorem State.halt_halted : s.halt.halted = true := rfl
@[simp] theorem State.halt_mem : s.halt.mem = s.mem := rfl
@[simp] theorem State.halt_config : s.halt.config = s.config := rfl
@[simp] theorem State.halt_powerUp : s.halt.powerUp = s.powerUp := rfl

@[simp] theorem State.setMem_regs (m : Memory) : (s.setMem m).regs = s.regs := rfl
@[simp] theorem State.setMem_pc (m : Memory) : (s.setMem m).pc = s.pc := rfl
@[simp] theorem State.setMem_flags (m : Memory) : (s.setMem m).flags = s.flags := rfl
@[simp] theorem State.setMem_halted (m : Memory) : (s.setMem m).halted = s.halted := rfl
@[simp] theorem State.setMem_mem (m : Memory) : (s.setMem m).mem = m := rfl
@[simp] theorem State.setMem_config (m : Memory) : (s.setMem m).config = s.config := rfl
@[simp] theorem State.setMem_powerUp (m : Memory) : (s.setMem m).powerUp = s.powerUp := rfl

@[simp] theorem State.advance_regs : s.advance.regs = s.regs := rfl
@[simp] theorem State.advance_pc : s.advance.pc = s.nextPc := rfl
@[simp] theorem State.advance_flags : s.advance.flags = s.flags := rfl
@[simp] theorem State.advance_halted : s.advance.halted = s.halted := rfl
@[simp] theorem State.advance_mem : s.advance.mem = s.mem := rfl
@[simp] theorem State.advance_config : s.advance.config = s.config := rfl
@[simp] theorem State.advance_powerUp : s.advance.powerUp = s.powerUp := rfl

end Fields

section Reads

variable (s : State)

@[simp] theorem State.setFlags_readReg (f : Flags) (q : RegIdx) : (s.setFlags f).readReg q = s.readReg q := rfl
@[simp] theorem State.setPc_readReg (p : Word) (q : RegIdx) : (s.setPc p).readReg q = s.readReg q := rfl
@[simp] theorem State.halt_readReg (q : RegIdx) : s.halt.readReg q = s.readReg q := rfl
@[simp] theorem State.setMem_readReg (m : Memory) (q : RegIdx) : (s.setMem m).readReg q = s.readReg q := rfl
@[simp] theorem State.advance_readReg (q : RegIdx) : s.advance.readReg q = s.readReg q := rfl

@[simp] theorem State.writeReg_byteAt (r : RegIdx) (v : Word) (a : Word) : (s.writeReg r v).byteAt a = s.byteAt a := rfl
@[simp] theorem State.setFlags_byteAt (f : Flags) (a : Word) : (s.setFlags f).byteAt a = s.byteAt a := rfl
@[simp] theorem State.setPc_byteAt (p : Word) (a : Word) : (s.setPc p).byteAt a = s.byteAt a := rfl
@[simp] theorem State.halt_byteAt (a : Word) : s.halt.byteAt a = s.byteAt a := rfl
@[simp] theorem State.advance_byteAt (a : Word) : s.advance.byteAt a = s.byteAt a := rfl

/-- A register reads as last written, and a write leaves every other register alone. -/
theorem State.writeReg_readReg (r q : RegIdx) (v : Word) :
    (s.writeReg r v).readReg q = if q = r then v else s.readReg q := by
  simp only [State.writeReg, State.readReg, Vector.get_eq_getElem, Vector.getElem_set, Fin.ext_iff, eq_comm]

@[simp] theorem State.writeReg_readReg_self (r : RegIdx) (v : Word) : (s.writeReg r v).readReg r = v := by
  simp [State.writeReg_readReg]

theorem State.writeReg_readReg_of_ne {r q : RegIdx} (v : Word) (h : q ≠ r) :
    (s.writeReg r v).readReg q = s.readReg q := by
  simp [State.writeReg_readReg, h]

@[simp] theorem State.setPc_nextPc (p : Word) : (s.setPc p).nextPc = p + 4#32 := rfl

@[simp] theorem State.writeReg_nextPc (r : RegIdx) (v : Word) : (s.writeReg r v).nextPc = s.nextPc := rfl

@[simp] theorem State.setFlags_nextPc (f : Flags) : (s.setFlags f).nextPc = s.nextPc := rfl

theorem State.nextPc_eq : s.nextPc = s.pc + 4#32 := rfl

@[simp] theorem State.relative_eq (offset : Word) : s.relative offset = s.pc + offset := rfl

end Reads

section Updates

variable (s : State)

@[simp] theorem State.setPc_setPc (p q : Word) : (s.setPc p).setPc q = s.setPc q := rfl

@[simp] theorem State.setFlags_setFlags (f g : Flags) : (s.setFlags f).setFlags g = s.setFlags g := rfl

@[simp] theorem State.setFlags_self : s.setFlags s.flags = s := rfl

/-! Writing the flags commutes with every other update. -/

theorem State.writeReg_setFlags (r : RegIdx) (v : Word) (f : Flags) :
    (s.setFlags f).writeReg r v = (s.writeReg r v).setFlags f := rfl

theorem State.setPc_setFlags (p : Word) (f : Flags) : (s.setFlags f).setPc p = (s.setPc p).setFlags f := rfl

theorem State.advance_setFlags (f : Flags) : (s.setFlags f).advance = s.advance.setFlags f := rfl

theorem State.halt_setFlags (f : Flags) : (s.setFlags f).halt = s.halt.setFlags f := rfl

theorem State.setMem_setFlags (m : Memory) (f : Flags) : (s.setFlags f).setMem m = (s.setMem m).setFlags f := rfl

end Updates

section Reset

variable (c : Config) (m : Memory)

@[simp] theorem State.resetWith_pc : (State.resetWith c m).pc = c.resetPc := rfl

@[simp] theorem State.resetWith_halted : (State.resetWith c m).halted = false := rfl

@[simp] theorem State.resetWith_mem : (State.resetWith c m).mem = m := rfl

@[simp] theorem State.resetWith_config : (State.resetWith c m).config = c := rfl

theorem State.reset_eq : State.reset = State.resetWith .defaults [] := rfl

end Reset

/-! ## What the operands are under the decided parameters -/

@[simp] theorem arithImm_eq (imm : BitVec 16) : arithImm imm = imm.signExtend 32 := rfl

@[simp] theorem logicImm_eq (imm : BitVec 16) : logicImm imm = imm.signExtend 32 := rfl

@[simp] theorem regShiftAmount_eq (v : Word) : regShiftAmount v = v.toNat % 32 := rfl

theorem regShiftAmount_lt (v : Word) : regShiftAmount v < 32 := Nat.mod_lt _ (by decide)

theorem displacement_eq (imm : BitVec 12) (shift : Nat) : displacement imm shift = imm.signExtend 32 <<< shift := rfl

theorem wordOffset_eq (imm : BitVec 16) : wordOffset imm = imm.signExtend 32 <<< 2 := rfl

theorem jumpOffset_eq (imm : BitVec 16) (shift : Nat) :
    jumpOffset imm shift = imm.signExtend 32 <<< (shift + 2) := by
  simp [jumpOffset, branchImmExt, ImmExt.extend, BitVec.shiftLeft_add]

theorem State.ea_eq (s : State) (ra : RegIdx) (imm : BitVec 12) (shift : Nat) :
    s.ea ra imm shift = s.readReg ra + displacement imm shift := rfl

@[simp] theorem State.setFlags_ea (s : State) (f : Flags) (ra : RegIdx) (imm : BitVec 12) (shift : Nat) :
    (s.setFlags f).ea ra imm shift = s.ea ra imm shift := rfl

/-- A sign-extended immediate shifted left is its product with a power of two, modulo 2^32. -/
theorem signExtend_shiftLeft {n : Nat} (imm : BitVec n) (k : Nat) :
    imm.signExtend 32 <<< k = BitVec.ofInt 32 (imm.toInt * 2 ^ k) := by
  have h : BitVec.twoPow 32 k = BitVec.ofInt 32 (2 ^ k) := by
    apply BitVec.eq_of_toNat_eq
    simp [BitVec.toNat_twoPow, BitVec.toNat_ofInt]
    norm_cast
  rw [BitVec.shiftLeft_eq_mul_twoPow, BitVec.ofInt_mul, h]
  rfl

end Sys2Proof.Machine
end

