-- ==== Sys2Proof/Laws/Memory.lean ====
section
/-! SUPPORT. Memory as data: read after write, the canonical form is kept, equal memories are equal data; and storing
consecutive bytes. -/

namespace Sys2Proof.Machine

/-! ## One byte -/

@[simp] theorem Memory.get?_nil (a : Nat) : Memory.get? [] a = none := rfl

/-- A read after a write gives the byte written at its address, and leaves every other address alone. -/
theorem Memory.get?_put (m : Memory) (a : Nat) (v : Byte) (b : Nat) :
    (Memory.put m a v).get? b = if b = a then some v else m.get? b := by
  induction m with
  | nil => simp [Memory.put, Memory.get?]
  | cons p m ih =>
    obtain ⟨k, w⟩ := p
    simp only [Memory.put]
    split
    · simp [Memory.get?]
    · split
      · subst_vars
        simp only [Memory.get?]
        split <;> simp_all
      · simp only [Memory.get?, ih]
        split
        · subst_vars
          simp_all [eq_comm]
        · rfl

/-- What a write lists is what was listed, and the written cell. -/
theorem Memory.mem_put {m : Memory} {a : Nat} {v : Byte} {p : Host.Cell} (h : p ∈ Memory.put m a v) :
    p = (a, v) ∨ p ∈ m := by
  induction m with
  | nil => simpa [Memory.put] using h
  | cons q m ih =>
    obtain ⟨k, w⟩ := q
    simp only [Memory.put] at h
    split at h
    · simpa using h
    · split at h
      · rcases List.mem_cons.1 h with h | h
        · exact .inl h
        · exact .inr (List.mem_cons_of_mem _ h)
      · rcases List.mem_cons.1 h with h | h
        · exact .inr (h ▸ List.mem_cons_self)
        · exact (ih h).imp id (List.mem_cons_of_mem _)

/-- A write of a byte at a 32-bit address keeps the canonical form. -/
theorem Memory.put_wf {m : Memory} (h : m.wf) {a : Nat} (ha : a < 4294967296) (v : Byte) : (Memory.put m a v).wf := by
  refine ⟨?_, fun p hp => ?_⟩
  · induction m with
    | nil => simp [Memory.put]
    | cons q m ih =>
      obtain ⟨k, w⟩ := q
      obtain ⟨hs, hb⟩ := h
      have hs' := List.pairwise_cons.1 hs
      simp only [Memory.put]
      split
      · rename_i hlt
        refine List.pairwise_cons.2 ⟨fun p hp => ?_, hs⟩
        rcases List.mem_cons.1 hp with rfl | hp
        · exact hlt
        · exact Nat.lt_trans hlt (hs'.1 p hp)
      · split
        · subst_vars
          exact List.pairwise_cons.2 ⟨hs'.1, hs'.2⟩
        · refine List.pairwise_cons.2 ⟨fun p hp => ?_, ih ⟨hs'.2, fun p hp => hb p (List.mem_cons_of_mem _ hp)⟩⟩
          rcases Memory.mem_put hp with rfl | hp
          · simp only; omega
          · exact hs'.1 p hp
  · rcases Memory.mem_put hp with rfl | hp
    · exact ha
    · exact h.2 p hp

/-- Below the first listed address nothing is listed. -/
theorem Memory.get?_eq_none_of_lt {m : Memory} {a : Nat} (h : ∀ p ∈ m, a < p.1) : m.get? a = none := by
  induction m with
  | nil => rfl
  | cons p m ih =>
    obtain ⟨k, w⟩ := p
    have hk : a < k := h (k, w) List.mem_cons_self
    simp only [Memory.get?, Nat.ne_of_lt hk, if_false]
    exact ih fun p hp => h p (List.mem_cons_of_mem _ hp)

/-- Two memories in canonical form that list the same byte at every address are the same data. -/
theorem Memory.ext_of_wf {m n : Memory} (hm : m.wf) (hn : n.wf) (h : ∀ a, m.get? a = n.get? a) : m = n := by
  induction m generalizing n with
  | nil =>
    cases n with
    | nil => rfl
    | cons q n => simpa [Memory.get?] using h q.1
  | cons p m ih =>
    obtain ⟨k, w⟩ := p
    have hm' := List.pairwise_cons.1 hm.1
    cases n with
    | nil => simpa [Memory.get?] using h k
    | cons q n =>
      obtain ⟨l, x⟩ := q
      have hn' := List.pairwise_cons.1 hn.1
      have hkl : k = l := by
        rcases Nat.lt_trichotomy k l with hlt | heq | hlt
        · have := h k
          rw [Memory.get?_eq_none_of_lt (m := (l, x) :: n)] at this
          · simp [Memory.get?] at this
          · intro p hp
            rcases List.mem_cons.1 hp with rfl | hp
            · exact hlt
            · exact Nat.lt_trans hlt (hn'.1 p hp)
        · exact heq
        · have := h l
          rw [Memory.get?_eq_none_of_lt (m := (k, w) :: m)] at this
          · simp [Memory.get?] at this
          · intro p hp
            rcases List.mem_cons.1 hp with rfl | hp
            · exact hlt
            · exact Nat.lt_trans hlt (hm'.1 p hp)
      subst hkl
      have hwx : w = x := by simpa [Memory.get?] using h k
      subst hwx
      congr 1
      refine ih ⟨hm'.2, fun p hp => hm.2 p (List.mem_cons_of_mem _ hp)⟩
        ⟨hn'.2, fun p hp => hn.2 p (List.mem_cons_of_mem _ hp)⟩ fun a => ?_
      by_cases hak : a = k
      · subst hak
        rw [Memory.get?_eq_none_of_lt hm'.1, Memory.get?_eq_none_of_lt hn'.1]
      · simpa [Memory.get?, hak] using h a

/-- Storing one byte: it reads back, and every other address reads as before. -/
theorem State.byteAt_put (s : State) (a : Word) (v : Byte) (b : Word) :
    (s.setMem (s.mem.put a.toNat v)).byteAt b = if b = a then v else s.byteAt b := by
  simp only [State.byteAt, State.setMem_mem, State.setMem_powerUp, Memory.get?_put, BitVec.toNat_inj]
  split <;> rfl

/-! ## Consecutive bytes -/

section PutBytes

variable (s : State) (a : Word) (bs : List Byte)

@[simp] theorem State.putBytes_regs : (s.putBytes a bs).regs = s.regs := by
  induction bs generalizing s a with
  | nil => rfl
  | cons b bs ih => simp [State.putBytes, ih]

@[simp] theorem State.putBytes_pc : (s.putBytes a bs).pc = s.pc := by
  induction bs generalizing s a with
  | nil => rfl
  | cons b bs ih => simp [State.putBytes, ih]

@[simp] theorem State.putBytes_flags : (s.putBytes a bs).flags = s.flags := by
  induction bs generalizing s a with
  | nil => rfl
  | cons b bs ih => simp [State.putBytes, ih]

@[simp] theorem State.putBytes_halted : (s.putBytes a bs).halted = s.halted := by
  induction bs generalizing s a with
  | nil => rfl
  | cons b bs ih => simp [State.putBytes, ih]

@[simp] theorem State.putBytes_config : (s.putBytes a bs).config = s.config := by
  induction bs generalizing s a with
  | nil => rfl
  | cons b bs ih => simp [State.putBytes, ih]

@[simp] theorem State.putBytes_powerUp : (s.putBytes a bs).powerUp = s.powerUp := by
  induction bs generalizing s a with
  | nil => rfl
  | cons b bs ih => simp [State.putBytes, ih]

@[simp] theorem State.putBytes_readReg (r : RegIdx) : (s.putBytes a bs).readReg r = s.readReg r := by
  simp [State.readReg]

theorem State.putBytes_setFlags (f : Flags) : (s.setFlags f).putBytes a bs = (s.putBytes a bs).setFlags f := by
  induction bs generalizing s a with
  | nil => rfl
  | cons b bs ih => simp only [State.putBytes, State.setFlags_mem, State.setMem_setFlags, ih]

/-- Storing consecutive bytes: each reads back at its place, and every other address reads as before. -/
theorem State.putBytes_byteAt (h : bs.length ≤ 4294967296) (x : Word) :
    (s.putBytes a bs).byteAt x = (bs[(x - a).toNat]?).getD (s.byteAt x) := by
  induction bs generalizing s a with
  | nil => simp [State.putBytes]
  | cons b bs ih =>
    simp only [List.length_cons] at h
    rw [State.putBytes, ih _ _ (by omega), State.byteAt_put]
    by_cases hx : x = a
    · subst hx
      have h1 : (x - (x + 1#32)).toNat = 4294967295 := by bv_omega
      rw [h1, List.getElem?_eq_none (by omega)]
      simp
    · have h1 : (x - a).toNat = (x - (a + 1#32)).toNat + 1 := by bv_omega
      rw [h1]
      simp [hx]

/-- Storing bytes keeps the canonical form. -/
theorem State.putBytes_wf (h : s.mem.wf) : (s.putBytes a bs).mem.wf := by
  induction bs generalizing s a with
  | nil => exact h
  | cons b bs ih => exact ih _ _ (Memory.put_wf h a.isLt b)

/-- What is listed after storing bytes was listed before, or is at one of their addresses. -/
theorem State.mem_putBytes {p : Host.Cell} (h : p ∈ (s.putBytes a bs).mem) :
    p ∈ s.mem ∨ ∃ k, k < bs.length ∧ p.1 = (a + BitVec.ofNat 32 k).toNat := by
  induction bs generalizing s a with
  | nil => exact .inl h
  | cons b bs ih =>
    rcases ih _ _ h with h | ⟨k, hk, hp⟩
    · rcases Memory.mem_put h with rfl | h
      · exact .inr ⟨0, by simp, by simp⟩
      · exact .inl h
    · refine .inr ⟨k + 1, by simpa using hk, ?_⟩
      rw [hp, BitVec.add_assoc]
      congr 2
      apply BitVec.eq_of_toNat_eq
      simp [Nat.add_comm]

end PutBytes

end Sys2Proof.Machine
end

