-- ==== Sys2Proof/Laws/Ops.lean ====
section
/-! SUPPORT. One lemma per shared operation that says everything it can do: the access checks, reads and writes of each
width, the fetch, and the invariant that a store keeps. -/

namespace Sys2Proof.Machine

/-! ## Checks -/

theorem aligned_iff (a : Word) (w : Width) : aligned a w = true ↔ a.toNat % w.bytes = 0 := by
  simp [aligned]

@[simp] theorem aligned_byte (a : Word) : aligned a .byte = true := by
  simp [aligned, Width.bytes, Nat.mod_one]

theorem mappedAccess_iff (c : Config) (a : Word) (w : Width) :
    mappedAccess c a w = true ↔ ∀ k, k < w.bytes → mapped c (a + BitVec.ofNat 32 k) = true := by
  simp [mappedAccess]

@[simp] theorem mappedAccess_byte (c : Config) (a : Word) : mappedAccess c a .byte = mapped c a := by
  simp [mappedAccess, Width.bytes, List.range, List.range.loop]

theorem mappedAccess_half (c : Config) (a : Word) :
    mappedAccess c a .half = (mapped c a && mapped c (a + 1#32)) := by
  simp [mappedAccess, Width.bytes, List.range, List.range.loop]

theorem mappedAccess_word (c : Config) (a : Word) :
    mappedAccess c a .word = (mapped c a && mapped c (a + 1#32) && mapped c (a + 2#32) && mapped c (a + 3#32)) := by
  simp [mappedAccess, Width.bytes, List.range, List.range.loop, Bool.and_assoc]

/-- The check succeeds exactly on an aligned access inside `MEM_MAP`. -/
theorem checkAccess_ok_iff (s : State) (a : Word) (w : Width) (u : Unit) :
    checkAccess s a w = .ok u ↔ aligned a w = true ∧ mappedAccess s.config a w = true := by
  unfold checkAccess
  cases aligned a w <;> cases mappedAccess s.config a w <;> simp

/-- The check fails by alignment first, then by `MEM_MAP`. -/
theorem checkAccess_error_iff (s : State) (a : Word) (w : Width) (f : Fault) :
    checkAccess s a w = .error f ↔ (aligned a w = false ∧ f = .misalignedAccess a) ∨
      (aligned a w = true ∧ mappedAccess s.config a w = false ∧ f = .accessFault a) := by
  unfold checkAccess
  cases aligned a w <;> cases mappedAccess s.config a w <;> simp [eq_comm]

/-- The check depends on the parameters alone. -/
theorem checkAccess_congr {s t : State} (h : s.config = t.config) (a : Word) (w : Width) :
    checkAccess s a w = checkAccess t a w := by
  simp [checkAccess, h]

/-! ## Reads, writes, fetch -/

theorem memRead8_of_ok {s : State} {a : Word} {u : Unit} (h : checkAccess s a .byte = .ok u) :
    memRead8 s a = .ok (s.byteAt a) := by simp [memRead8, h]

theorem memRead16_of_ok {s : State} {a : Word} {u : Unit} (h : checkAccess s a .half = .ok u) :
    memRead16 s a = .ok (s.byteAt a ++ s.byteAt (a + 1#32)) := by simp [memRead16, h]

theorem memRead32_of_ok {s : State} {a : Word} {u : Unit} (h : checkAccess s a .word = .ok u) :
    memRead32 s a =
      .ok (wordOfBytes (s.byteAt a) (s.byteAt (a + 1#32)) (s.byteAt (a + 2#32)) (s.byteAt (a + 3#32))) := by
  simp [memRead32, h]

theorem memRead8_of_error {s : State} {a : Word} {f : Fault} (h : checkAccess s a .byte = .error f) :
    memRead8 s a = .error f := by simp [memRead8, h]

theorem memRead16_of_error {s : State} {a : Word} {f : Fault} (h : checkAccess s a .half = .error f) :
    memRead16 s a = .error f := by simp [memRead16, h]

theorem memRead32_of_error {s : State} {a : Word} {f : Fault} (h : checkAccess s a .word = .error f) :
    memRead32 s a = .error f := by simp [memRead32, h]

theorem memWrite_of_ok {s : State} {a : Word} {w : Width} {u : Unit} (h : checkAccess s a w = .ok u) (v : Word) :
    memWrite s a w v = .ok (s.putBytes a (storedBytes v w)) := by simp [memWrite, h]

theorem memWrite_of_error {s : State} {a : Word} {w : Width} {f : Fault} (h : checkAccess s a w = .error f) (v : Word) :
    memWrite s a w v = .error f := by simp [memWrite, h]

/-- The check of an access either succeeds or fails. -/
theorem checkAccess_cases (s : State) (a : Word) (w : Width) :
    checkAccess s a w = .ok () ∨ ∃ f, checkAccess s a w = .error f := by
  cases h : checkAccess s a w with
  | ok u => exact .inl rfl
  | error f => exact .inr ⟨f, rfl⟩

@[simp] theorem storedBytes_length (v : Word) (w : Width) : (storedBytes v w).length = w.bytes := by
  cases w <;> rfl

theorem Width.bytes_le (w : Width) : w.bytes ≤ 4 := by
  cases w <;> decide

theorem fetch_misaligned {s : State} (h : aligned s.pc .word = false) : fetch s = .error (.misalignedFetch s.pc) := by
  simp [fetch, h]

theorem fetch_unmapped {s : State} (h : aligned s.pc .word = true) (hm : mappedAccess s.config s.pc .word = false) :
    fetch s = .error (.accessFault s.pc) := by
  simp [fetch, h, memRead32, checkAccess, hm]

theorem fetch_mapped {s : State} (h : aligned s.pc .word = true) (hm : mappedAccess s.config s.pc .word = true) :
    fetch s = .ok (wordOfBytes (s.byteAt s.pc) (s.byteAt (s.pc + 1#32)) (s.byteAt (s.pc + 2#32))
      (s.byteAt (s.pc + 3#32))) := by
  simp [fetch, h, memRead32, checkAccess, hm]

/-- A fetch that succeeds is of an aligned pc inside `MEM_MAP`. -/
theorem fetch_ok {s : State} {w : Word} (h : fetch s = .ok w) :
    aligned s.pc .word = true ∧ mappedAccess s.config s.pc .word = true ∧
      w = wordOfBytes (s.byteAt s.pc) (s.byteAt (s.pc + 1#32)) (s.byteAt (s.pc + 2#32)) (s.byteAt (s.pc + 3#32)) := by
  cases ha : aligned s.pc .word with
  | false => simp [fetch_misaligned ha] at h
  | true =>
    cases hm : mappedAccess s.config s.pc .word with
    | false => simp [fetch_unmapped ha hm] at h
    | true => exact ⟨rfl, rfl, by simpa [fetch_mapped ha hm] using h.symm⟩

/-! ## Stored bytes read back -/

/-- An offset of at most 2^32 bytes is found again by subtraction. -/
theorem add_sub_toNat (a : Word) {k : Nat} (h : k < 4294967296) : (a + BitVec.ofNat 32 k - a).toNat = k := by
  bv_omega

/-- The `k`-th stored byte stands `k` addresses up. -/
theorem State.putBytes_byteAt_add (s : State) (a : Word) (bs : List Byte) (h : bs.length ≤ 4294967296) {k : Nat}
    (hk : k < bs.length) : (s.putBytes a bs).byteAt (a + BitVec.ofNat 32 k) = bs[k] := by
  rw [State.putBytes_byteAt s a bs h, add_sub_toNat a (by omega)]
  simp [hk]

/-- Outside the stored bytes every address reads as before. -/
theorem State.putBytes_byteAt_of_outside (s : State) (a : Word) (bs : List Byte) (h : bs.length ≤ 4294967296) {b : Word}
    (hb : ∀ k, k < bs.length → b ≠ a + BitVec.ofNat 32 k) : (s.putBytes a bs).byteAt b = s.byteAt b := by
  rw [State.putBytes_byteAt s a bs h, List.getElem?_eq_none]
  · rfl
  · by_contra hlt
    refine hb (b - a).toNat (by omega) ?_
    rw [BitVec.ofNat_toNat, BitVec.setWidth_eq]
    bv_omega

/-! ## The invariant -/

/-- Storing bytes inside `MEM_MAP` keeps the invariant. -/
theorem Inv.putBytes {s : State} (h : Inv s) {a : Word} {w : Width} (hm : mappedAccess s.config a w = true) (v : Word) :
    Inv (s.putBytes a (storedBytes v w)) := by
  refine ⟨State.putBytes_wf _ _ _ h.1, fun p hp => ?_⟩
  rw [State.putBytes_config]
  rcases State.mem_putBytes _ _ _ hp with hp | ⟨k, hk, hp⟩
  · exact h.2 p hp
  · rw [hp, BitVec.ofNat_toNat, BitVec.setWidth_eq]
    exact (mappedAccess_iff _ _ _).1 hm k (by simpa using hk)

/-- The invariant is about memory and parameters alone. -/
theorem Inv.congr {s t : State} (h : Inv s) (hm : t.mem = s.mem) (hc : t.config = s.config) : Inv t := by
  unfold Inv
  rw [hm, hc]
  exact h

end Sys2Proof.Machine
end

