-- ==== Sys2Proof/Laws/Exec.lean ====
section
/-! SUPPORT. What an instruction can do, said once: the shapes of its next state, when it faults, and that it is never
refused. -/

namespace Sys2Proof.Machine

/-- The shapes an instruction's next state can have. -/
inductive Effect (s : State) : Instr → State → Prop where
  | reg (i : Instr) (rd : RegIdx) (v : Word) (hd : i.destination = some rd) (hf : i.writesFlags = false)
      (hs : i.stores = false) (hc : i.transfersControl = false) : Effect s i (s.writeReg rd v).advance
  | regFlags (i : Instr) (rd : RegIdx) (v : Word) (f : Flags) (hd : i.destination = some rd)
      (hf : i.writesFlags = true) (hs : i.stores = false) (hc : i.transfersControl = false) :
      Effect s i ((s.writeReg rd v).setFlags f).advance
  | store (i : Instr) (w : Width) (rv ra : RegIdx) (imm : BitVec 12) (shift : Nat)
      (ha : i.access = some (w, ra, imm, shift)) (hok : checkAccess s (s.ea ra imm shift) w = .ok ())
      (hd : i.destination = none) (hf : i.writesFlags = false) (hs : i.stores = true)
      (hc : i.transfersControl = false) :
      Effect s i (s.putBytes (s.ea ra imm shift) (storedBytes (s.readReg rv) w)).advance
  | jump (i : Instr) (p : Word) (hd : i.destination = none) (hf : i.writesFlags = false) (hs : i.stores = false)
      (hc : i.transfersControl = true) : Effect s i (s.setPc p)
  | link (i : Instr) (rd : RegIdx) (p : Word) (hd : i.destination = some rd) (hf : i.writesFlags = false)
      (hs : i.stores = false) (hc : i.transfersControl = true) : Effect s i ((s.writeReg rd s.nextPc).setPc p)
  | nop : Effect s .nop s.advance
  | halt : Effect s .halt s.halt

theorem endLoad_cases (s : State) (rv : RegIdx) (r : Except Fault Word) :
    (∃ v, r = .ok v ∧ endLoad s rv r = .next (s.writeReg rv v).advance) ∨
      ∃ f, r = .error f ∧ endLoad s rv r = .fault f := by
  cases r with
  | ok v => exact .inl ⟨v, rfl, rfl⟩
  | error f => exact .inr ⟨f, rfl, rfl⟩

theorem endStore_memWrite (s : State) (a : Word) (w : Width) (v : Word) :
    (checkAccess s a w = .ok () ∧ endStore (memWrite s a w v) = .next (s.putBytes a (storedBytes v w)).advance) ∨
      ∃ f, checkAccess s a w = .error f ∧ endStore (memWrite s a w v) = .fault f := by
  rcases checkAccess_cases s a w with h | ⟨f, h⟩
  · exact .inl ⟨h, by rw [memWrite_of_ok h]; rfl⟩
  · exact .inr ⟨f, h, by rw [memWrite_of_error h]; rfl⟩

/-- A next state of an instruction has one of the shapes. -/
theorem exec_effect {i : Instr} {s t : State} (h : exec i s = .next t) : Effect s i t := by
  have ld {j : Instr} {rv : RegIdx} {r : Except Fault Word} (h : endLoad s rv r = .next t)
      (hd : j.destination = some rv) (hf : j.writesFlags = false) (hs : j.stores = false)
      (hc : j.transfersControl = false) : Effect s j t := by
    rcases endLoad_cases s rv r with ⟨v, -, he⟩ | ⟨f, -, he⟩ <;> rw [he] at h <;> cases h
    exact .reg _ _ _ hd hf hs hc
  have st {j : Instr} {rv ra : RegIdx} {imm : BitVec 12} {shift : Nat} {w : Width}
      (h : endStore (memWrite s (s.ea ra imm shift) w (s.readReg rv)) = .next t)
      (ha : j.access = some (w, ra, imm, shift)) (hd : j.destination = none) (hf : j.writesFlags = false)
      (hs : j.stores = true) (hc : j.transfersControl = false) : Effect s j t := by
    rcases endStore_memWrite s (s.ea ra imm shift) w (s.readReg rv) with ⟨hok, he⟩ | ⟨f, -, he⟩ <;>
      rw [he] at h <;> cases h
    exact .store _ _ _ _ _ _ ha hok hd hf hs hc
  cases i with
  | ldbu | ldb | ldhwu | ldhw | ldw => exact ld h rfl rfl rfl rfl
  | stb | sthw | stw => exact st h rfl rfl rfl rfl rfl
  | addu | add | addi | subu | sub | subi => cases h; exact .regFlags _ _ _ _ rfl rfl rfl rfl
  | movil | movih | mov | and | andi | or | ori | xor | xori | sl | sli | sr | sri | sra | srai =>
    cases h; exact .reg _ _ _ rfl rfl rfl rfl
  | j | jr | beq | blt | bge | bne => cases h; exact .jump _ _ rfl rfl rfl rfl
  | jl | jlr => cases h; exact .link _ _ _ rfl rfl rfl rfl
  | nop => cases h; exact .nop
  | halt => cases h; exact .halt

/-- Only a load or a store faults, by the check of its access (R139, R171). -/
theorem exec_fault {i : Instr} {s : State} {f : Fault} (h : exec i s = .fault f) :
    ∃ w ra imm shift, i.access = some (w, ra, imm, shift) ∧ checkAccess s (s.ea ra imm shift) w = .error f := by
  have st {rv ra : RegIdx} {imm : BitVec 12} {shift : Nat} {w : Width}
      (h : endStore (memWrite s (s.ea ra imm shift) w (s.readReg rv)) = .fault f) :
      checkAccess s (s.ea ra imm shift) w = .error f := by
    rcases endStore_memWrite s (s.ea ra imm shift) w (s.readReg rv) with ⟨-, he⟩ | ⟨g, hg, he⟩ <;>
      rw [he] at h <;> cases h
    exact hg
  have ld {rv ra : RegIdx} {imm : BitVec 12} {shift : Nat} {w : Width} {r : Except Fault Word}
      (h : endLoad s rv r = .fault f)
      (hr : checkAccess s (s.ea ra imm shift) w = .ok () → ∃ v, r = .ok v)
      (hr' : ∀ g, checkAccess s (s.ea ra imm shift) w = .error g → r = .error g) :
      checkAccess s (s.ea ra imm shift) w = .error f := by
    rcases checkAccess_cases s (s.ea ra imm shift) w with hok | ⟨g, hg⟩
    · obtain ⟨v, rfl⟩ := hr hok
      cases h
    · rw [hr' g hg] at h
      cases h
      exact hg
  cases i with
  | ldbu _ ra imm shift | ldb _ ra imm shift =>
    exact ⟨_, _, _, _, rfl, ld h (fun k => ⟨_, by rw [memRead8_of_ok k]; rfl⟩)
      (fun g k => by rw [memRead8_of_error k]; rfl)⟩
  | ldhwu _ ra imm shift | ldhw _ ra imm shift =>
    exact ⟨_, _, _, _, rfl, ld h (fun k => ⟨_, by rw [memRead16_of_ok k]; rfl⟩)
      (fun g k => by rw [memRead16_of_error k]; rfl)⟩
  | ldw _ ra imm shift =>
    exact ⟨_, _, _, _, rfl, ld h (fun k => ⟨_, memRead32_of_ok k⟩) (fun g k => memRead32_of_error k)⟩
  | stb | sthw | stw => exact ⟨_, _, _, _, rfl, st h⟩
  | addu | add | addi | subu | sub | subi | movil | movih | mov | and | andi | or | ori | xor | xori | sl | sli | sr
  | sri | sra | srai | j | jr | beq | blt | bge | bne | jl | jlr | nop | halt => cases h

/-- No instruction is refused. -/
theorem exec_ne_refused (i : Instr) (s : State) (r : Refusal) : exec i s ≠ .refused r := by
  intro h
  cases i with
  | ldbu | ldb | ldhwu | ldhw | ldw =>
    rcases endLoad_cases s _ _ with ⟨v, -, he⟩ | ⟨f, -, he⟩ <;> cases he.symm.trans h
  | stb | sthw | stw =>
    rcases endStore_memWrite s _ _ _ with ⟨-, he⟩ | ⟨f, -, he⟩ <;> cases he.symm.trans h
  | addu | add | addi | subu | sub | subi | movil | movih | mov | and | andi | or | ori | xor | xori | sl | sli | sr
  | sri | sra | srai | j | jr | beq | blt | bge | bne | jl | jlr | nop | halt => cases h

end Sys2Proof.Machine
end

