-- ==== Sys2Proof/Laws/PerInstr.lean ====
section
/-! SUPPORT. Per instruction: the encoded word of a well-formed instruction fits a row of the machine, and that row
builds the instruction back from the word's fields. -/

namespace Sys2Proof.Laws.MatchesRow

/-- A row of the machine is fitted by the encoded word and builds the instruction from it (R78). -/
def Statement (i : Instr) : Prop :=
  i.wf = true → ∀ c : Config, ∃ r ∈ c.rows, r.fits (encode c i) = true ∧ r.build (encode c i) = i

/-- The statement, for an instruction whose row is in the opcode map. -/
theorem of_opcodeTable {i : Instr} {c : Config} {r : OpRow} (hr : r ∈ opcodeTable)
    (hfits : encode c i &&& r.mask = r.pattern) (hbuild : r.build (encode c i) = i) :
    ∃ r ∈ c.rows, r.fits (encode c i) = true ∧ r.build (encode c i) = i :=
  ⟨r, List.mem_append_left _ hr, (OpRow.fits_iff r _).2 hfits, hbuild⟩

theorem movil (rd : RegIdx) (imm : BitVec 16) : Statement (.movil rd imm) := fun _ _ =>
  of_opcodeTable (r := opcodeTable[0]) (List.getElem_mem _) (encodeR_I_masked ..)
    (by show Instr.movil (fieldRd _) (fieldImm16 _) = _; simp [encode])

theorem movih (rd : RegIdx) (imm : BitVec 16) : Statement (.movih rd imm) := fun _ _ =>
  of_opcodeTable (r := opcodeTable[1]) (List.getElem_mem _) (encodeR_I_masked ..)
    (by show Instr.movih (fieldRd _) (fieldImm16 _) = _; simp [encode])

theorem mov (rd rb : RegIdx) : Statement (.mov rd rb) := fun _ _ =>
  of_opcodeTable (r := opcodeTable[2]) (List.getElem_mem _) (encodeR_R_masked ..)
    (by show Instr.mov (fieldRd _) (fieldRb _) = _; simp [encode])

theorem ldbu (rv ra : RegIdx) (imm : BitVec 12) (shift : Nat) : Statement (.ldbu rv ra imm shift) := fun h _ =>
  of_opcodeTable (r := opcodeTable[3]) (List.getElem_mem _) (encodeRRSI_masked ..)
    (by show Instr.ldbu (fieldRd _) (fieldRa _) (fieldImm12 _) (fieldMemShift _) = _; rw [encode, encodeRRSI_fieldMemShift (h := by simpa [Instr.wf, memShiftFits] using h)]; simp)

theorem ldb (rv ra : RegIdx) (imm : BitVec 12) (shift : Nat) : Statement (.ldb rv ra imm shift) := fun h _ =>
  of_opcodeTable (r := opcodeTable[4]) (List.getElem_mem _) (encodeRRSI_masked ..)
    (by show Instr.ldb (fieldRd _) (fieldRa _) (fieldImm12 _) (fieldMemShift _) = _; rw [encode, encodeRRSI_fieldMemShift (h := by simpa [Instr.wf, memShiftFits] using h)]; simp)

theorem ldhwu (rv ra : RegIdx) (imm : BitVec 12) (shift : Nat) : Statement (.ldhwu rv ra imm shift) := fun h _ =>
  of_opcodeTable (r := opcodeTable[5]) (List.getElem_mem _) (encodeRRSI_masked ..)
    (by show Instr.ldhwu (fieldRd _) (fieldRa _) (fieldImm12 _) (fieldMemShift _) = _; rw [encode, encodeRRSI_fieldMemShift (h := by simpa [Instr.wf, memShiftFits] using h)]; simp)

theorem ldhw (rv ra : RegIdx) (imm : BitVec 12) (shift : Nat) : Statement (.ldhw rv ra imm shift) := fun h _ =>
  of_opcodeTable (r := opcodeTable[6]) (List.getElem_mem _) (encodeRRSI_masked ..)
    (by show Instr.ldhw (fieldRd _) (fieldRa _) (fieldImm12 _) (fieldMemShift _) = _; rw [encode, encodeRRSI_fieldMemShift (h := by simpa [Instr.wf, memShiftFits] using h)]; simp)

theorem ldw (rv ra : RegIdx) (imm : BitVec 12) (shift : Nat) : Statement (.ldw rv ra imm shift) := fun h _ =>
  of_opcodeTable (r := opcodeTable[7]) (List.getElem_mem _) (encodeRRSI_masked ..)
    (by show Instr.ldw (fieldRd _) (fieldRa _) (fieldImm12 _) (fieldMemShift _) = _; rw [encode, encodeRRSI_fieldMemShift (h := by simpa [Instr.wf, memShiftFits] using h)]; simp)

theorem stb (rv ra : RegIdx) (imm : BitVec 12) (shift : Nat) : Statement (.stb rv ra imm shift) := fun h _ =>
  of_opcodeTable (r := opcodeTable[8]) (List.getElem_mem _) (encodeRRSI_masked ..)
    (by show Instr.stb (fieldRd _) (fieldRa _) (fieldImm12 _) (fieldMemShift _) = _; rw [encode, encodeRRSI_fieldMemShift (h := by simpa [Instr.wf, memShiftFits] using h)]; simp)

theorem sthw (rv ra : RegIdx) (imm : BitVec 12) (shift : Nat) : Statement (.sthw rv ra imm shift) := fun h _ =>
  of_opcodeTable (r := opcodeTable[9]) (List.getElem_mem _) (encodeRRSI_masked ..)
    (by show Instr.sthw (fieldRd _) (fieldRa _) (fieldImm12 _) (fieldMemShift _) = _; rw [encode, encodeRRSI_fieldMemShift (h := by simpa [Instr.wf, memShiftFits] using h)]; simp)

theorem stw (rv ra : RegIdx) (imm : BitVec 12) (shift : Nat) : Statement (.stw rv ra imm shift) := fun h _ =>
  of_opcodeTable (r := opcodeTable[10]) (List.getElem_mem _) (encodeRRSI_masked ..)
    (by show Instr.stw (fieldRd _) (fieldRa _) (fieldImm12 _) (fieldMemShift _) = _; rw [encode, encodeRRSI_fieldMemShift (h := by simpa [Instr.wf, memShiftFits] using h)]; simp)

theorem addu (rd ra rb : RegIdx) : Statement (.addu rd ra rb) := fun _ _ =>
  of_opcodeTable (r := opcodeTable[11]) (List.getElem_mem _) (encodeRRR_masked ..)
    (by show Instr.addu (fieldRd _) (fieldRa _) (fieldRb _) = _; simp [encode])

theorem add (rd ra rb : RegIdx) : Statement (.add rd ra rb) := fun _ _ =>
  of_opcodeTable (r := opcodeTable[12]) (List.getElem_mem _) (encodeRRR_masked ..)
    (by show Instr.add (fieldRd _) (fieldRa _) (fieldRb _) = _; simp [encode])

theorem addi (rd ra : RegIdx) (imm : BitVec 16) : Statement (.addi rd ra imm) := fun _ _ =>
  of_opcodeTable (r := opcodeTable[13]) (List.getElem_mem _) (encodeRRI_masked ..)
    (by show Instr.addi (fieldRd _) (fieldRa _) (fieldImm16 _) = _; simp [encode])

theorem subu (rd ra rb : RegIdx) : Statement (.subu rd ra rb) := fun _ _ =>
  of_opcodeTable (r := opcodeTable[14]) (List.getElem_mem _) (encodeRRR_masked ..)
    (by show Instr.subu (fieldRd _) (fieldRa _) (fieldRb _) = _; simp [encode])

theorem sub (rd ra rb : RegIdx) : Statement (.sub rd ra rb) := fun _ _ =>
  of_opcodeTable (r := opcodeTable[15]) (List.getElem_mem _) (encodeRRR_masked ..)
    (by show Instr.sub (fieldRd _) (fieldRa _) (fieldRb _) = _; simp [encode])

theorem subi (rd ra : RegIdx) (imm : BitVec 16) : Statement (.subi rd ra imm) := fun _ _ =>
  of_opcodeTable (r := opcodeTable[16]) (List.getElem_mem _) (encodeRRI_masked ..)
    (by show Instr.subi (fieldRd _) (fieldRa _) (fieldImm16 _) = _; simp [encode])

theorem and (rd ra rb : RegIdx) : Statement (.and rd ra rb) := fun _ _ =>
  of_opcodeTable (r := opcodeTable[17]) (List.getElem_mem _) (encodeRRR_masked ..)
    (by show Instr.and (fieldRd _) (fieldRa _) (fieldRb _) = _; simp [encode])

theorem andi (rd ra : RegIdx) (imm : BitVec 16) : Statement (.andi rd ra imm) := fun _ _ =>
  of_opcodeTable (r := opcodeTable[18]) (List.getElem_mem _) (encodeRRI_masked ..)
    (by show Instr.andi (fieldRd _) (fieldRa _) (fieldImm16 _) = _; simp [encode])

theorem or (rd ra rb : RegIdx) : Statement (.or rd ra rb) := fun _ _ =>
  of_opcodeTable (r := opcodeTable[19]) (List.getElem_mem _) (encodeRRR_masked ..)
    (by show Instr.or (fieldRd _) (fieldRa _) (fieldRb _) = _; simp [encode])

theorem ori (rd ra : RegIdx) (imm : BitVec 16) : Statement (.ori rd ra imm) := fun _ _ =>
  of_opcodeTable (r := opcodeTable[20]) (List.getElem_mem _) (encodeRRI_masked ..)
    (by show Instr.ori (fieldRd _) (fieldRa _) (fieldImm16 _) = _; simp [encode])

theorem xor (rd ra rb : RegIdx) : Statement (.xor rd ra rb) := fun _ _ =>
  of_opcodeTable (r := opcodeTable[21]) (List.getElem_mem _) (encodeRRR_masked ..)
    (by show Instr.xor (fieldRd _) (fieldRa _) (fieldRb _) = _; simp [encode])

theorem xori (rd ra : RegIdx) (imm : BitVec 16) : Statement (.xori rd ra imm) := fun _ _ =>
  of_opcodeTable (r := opcodeTable[22]) (List.getElem_mem _) (encodeRRI_masked ..)
    (by show Instr.xori (fieldRd _) (fieldRa _) (fieldImm16 _) = _; simp [encode])

theorem sl (rd ra rb : RegIdx) : Statement (.sl rd ra rb) := fun _ _ =>
  of_opcodeTable (r := opcodeTable[23]) (List.getElem_mem _) (encodeRRR_masked ..)
    (by show Instr.sl (fieldRd _) (fieldRa _) (fieldRb _) = _; simp [encode])

theorem sli (rd ra : RegIdx) (amount : Nat) : Statement (.sli rd ra amount) := fun h _ =>
  of_opcodeTable (r := opcodeTable[24]) (List.getElem_mem _) (encodeRRi_masked ..)
    (by show Instr.sli (fieldRd _) (fieldRa _) (fieldAmount _) = _; rw [encode, encodeRRi_fieldAmount (h := by simpa [Instr.wf, amountFits] using h)]; simp)

theorem sr (rd ra rb : RegIdx) : Statement (.sr rd ra rb) := fun _ _ =>
  of_opcodeTable (r := opcodeTable[25]) (List.getElem_mem _) (encodeRRR_masked ..)
    (by show Instr.sr (fieldRd _) (fieldRa _) (fieldRb _) = _; simp [encode])

theorem sri (rd ra : RegIdx) (amount : Nat) : Statement (.sri rd ra amount) := fun h _ =>
  of_opcodeTable (r := opcodeTable[26]) (List.getElem_mem _) (encodeRRi_masked ..)
    (by show Instr.sri (fieldRd _) (fieldRa _) (fieldAmount _) = _; rw [encode, encodeRRi_fieldAmount (h := by simpa [Instr.wf, amountFits] using h)]; simp)

theorem sra (rd ra rb : RegIdx) : Statement (.sra rd ra rb) := fun _ _ =>
  of_opcodeTable (r := opcodeTable[27]) (List.getElem_mem _) (encodeRRR_masked ..)
    (by show Instr.sra (fieldRd _) (fieldRa _) (fieldRb _) = _; simp [encode])

theorem srai (rd ra : RegIdx) (amount : Nat) : Statement (.srai rd ra amount) := fun h _ =>
  of_opcodeTable (r := opcodeTable[28]) (List.getElem_mem _) (encodeRRi_masked ..)
    (by show Instr.srai (fieldRd _) (fieldRa _) (fieldAmount _) = _; rw [encode, encodeRRi_fieldAmount (h := by simpa [Instr.wf, amountFits] using h)]; simp)

theorem j (imm : BitVec 16) (shift : Nat) : Statement (.j imm shift) := fun h _ =>
  of_opcodeTable (r := opcodeTable[29]) (List.getElem_mem _) (encodeJ_masked ..)
    (by show Instr.j (fieldImm16 _) (fieldJumpShift _) = _; rw [encode, encodeJ_fieldJumpShift (h := by simpa [Instr.wf, jumpShiftFits] using h)]; simp)

theorem jr (ra : RegIdx) : Statement (.jr ra) := fun _ _ =>
  of_opcodeTable (r := opcodeTable[30]) (List.getElem_mem _) (encodeJR_masked ..)
    (by show Instr.jr (fieldRa _) = _; simp [encode])

theorem jl (rd : RegIdx) (imm : BitVec 16) (shift : Nat) : Statement (.jl rd imm shift) := fun h _ =>
  of_opcodeTable (r := opcodeTable[31]) (List.getElem_mem _) (encodeJL_masked ..)
    (by show Instr.jl (fieldRd _) (fieldImm16 _) (fieldJumpShift _) = _; rw [encode, encodeJL_fieldJumpShift (h := by simpa [Instr.wf, jumpShiftFits] using h)]; simp)

theorem jlr (rd ra : RegIdx) (imm : BitVec 16) : Statement (.jlr rd ra imm) := fun _ _ =>
  of_opcodeTable (r := opcodeTable[32]) (List.getElem_mem _) (encodeRRI_masked ..)
    (by show Instr.jlr (fieldRd _) (fieldRa _) (fieldImm16 _) = _; simp [encode])

theorem beq (imm : BitVec 16) : Statement (.beq imm) := fun _ _ =>
  of_opcodeTable (r := opcodeTable[33]) (List.getElem_mem _) (encodeBranch_masked ..)
    (by show Instr.beq (fieldImm16 _) = _; simp [encode])

theorem blt (imm : BitVec 16) : Statement (.blt imm) := fun _ _ =>
  of_opcodeTable (r := opcodeTable[34]) (List.getElem_mem _) (encodeBranch_masked ..)
    (by show Instr.blt (fieldImm16 _) = _; simp [encode])

theorem bge (imm : BitVec 16) : Statement (.bge imm) := fun _ _ =>
  of_opcodeTable (r := opcodeTable[35]) (List.getElem_mem _) (encodeBranch_masked ..)
    (by show Instr.bge (fieldImm16 _) = _; simp [encode])

theorem bne (imm : BitVec 16) : Statement (.bne imm) := fun _ _ =>
  of_opcodeTable (r := opcodeTable[36]) (List.getElem_mem _) (encodeBranch_masked ..)
    (by show Instr.bne (fieldImm16 _) = _; simp [encode])

theorem nop : Statement .nop := fun _ c => by
  refine ⟨⟨"NOP", c.encNop, 0xFFFFFFFF#32, fun _ => .nop⟩, ?_, ?_, rfl⟩
  · simp [Config.rows]
  · simp [fits_whole_word, encode]

theorem halt : Statement .halt := fun _ c => by
  refine ⟨⟨"HALT", c.encHalt, 0xFFFFFFFF#32, fun _ => .halt⟩, ?_, ?_, rfl⟩
  · simp [Config.rows]
  · simp [fits_whole_word, encode]

end Sys2Proof.Laws.MatchesRow
end

