-- ==== Sys2Proof/Laws/Step.lean ====
section
/-! SUPPORT. What a step can do, said once, and how a run goes on. -/

namespace Sys2Proof.Machine

theorem step_halted {s : State} (h : s.halted = true) : step s = .next s := by simp [step, h]

theorem step_fetch_error {s : State} (h : s.halted = false) {f : Fault} (hf : fetch s = .error f) :
    step s = .fault f := by
  simp [step, h, hf, raise]

theorem step_decode_error {s : State} (h : s.halted = false) {w : Word} (hf : fetch s = .ok w) {e : Reject}
    (hd : decode s.config w = .error e) : step s = .fault (.illegalInstruction s.pc w) := by
  simp [step, h, hf, decodeAndExec, hd, raise]

theorem step_decoded {s : State} (h : s.halted = false) {w : Word} (hf : fetch s = .ok w) {i : Instr}
    (hd : decode s.config w = .ok i) : step s = exec i s := by
  simp [step, h, hf, decodeAndExec, hd]

/-- A step that answers a next state is the stutter of a halted machine, or runs a decoded instruction. -/
theorem step_next {s t : State} (h : step s = .next t) :
    (s.halted = true ∧ t = s) ∨
      (s.halted = false ∧ ∃ w i, fetch s = .ok w ∧ decode s.config w = .ok i ∧ exec i s = .next t) := by
  cases hh : s.halted with
  | true =>
    rw [step_halted hh] at h
    exact .inl ⟨rfl, by cases h; rfl⟩
  | false =>
    refine .inr ⟨rfl, ?_⟩
    cases hf : fetch s with
    | error f => rw [step_fetch_error hh hf] at h; cases h
    | ok w =>
      cases hd : decode s.config w with
      | error e => rw [step_decode_error hh hf hd] at h; cases h
      | ok i => exact ⟨w, i, rfl, hd, by rwa [step_decoded hh hf hd] at h⟩

/-- A run that does not run takes no further step. -/
theorem Run.tick_of_ne_running {r : Run} (h : r.status ≠ .running) : r.tick = r := by
  unfold Run.tick
  split
  · exact absurd ‹_› h
  · rfl

theorem Run.ticks_of_ne_running {r : Run} (h : r.status ≠ .running) (n : Nat) : r.ticks n = r := by
  induction n with
  | zero => rfl
  | succ n ih => rw [Run.ticks, Run.tick_of_ne_running h, ih]

end Sys2Proof.Machine
end

