-- ==== Sys2Proof/Tests/Slice0.lean ====
section
/-! SUPPORT. The model's own tests. Expected values come from the spec: the words of 95_test_vectors.md section 2.1 (and
2.2 for words that are no instruction), the results of its sections 2.3 to 2.12, and the rules named. After them, for
every obligation with hypotheses, a witness that meets them together. -/

namespace Sys2Proof.Tests

open Sys2Proof.Machine

/-! ## Helpers -/

/-- The machine of the spec's vectors: `MEM_MAP` = 0x000 .. 0x1FF. -/
def smallConfig : Config := { Config.defaults with memMap := [⟨0, 512⟩] }

/-- A running machine at pc 0x10 with `x[1]` = a and `x[2]` = b, all else as after reset. -/
def stateWith (a b : Word) : State :=
  (((State.resetWith smallConfig []).setPc 0x10#32).writeReg 1 a).writeReg 2 b

/-- That machine with the spec's data at 0x100: 81 02 F3 04 7F FF 80 00. -/
def dataState (a b : Word) : State :=
  (stateWith a b).putBytes 0x100#32 [0x81, 0x02, 0xF3, 0x04, 0x7F, 0xFF, 0x80, 0x00]

/-- One step that fetches, decodes and runs the word. -/
def stepWord (s : State) (w : Nat) : Result := step (s.withFetchWord 32 w)

/-- A register after the step. -/
def regOfResult (q : RegIdx) : Result → Option Word
  | .next t => some (t.readReg q)
  | .fault _ => none
  | .refused _ => none

/-- The flags after the step. -/
def flagsOfResult : Result → Option Flags
  | .next t => some t.flags
  | .fault _ => none
  | .refused _ => none

/-- The pc after the step. -/
def pcOfResult : Result → Option Word
  | .next t => some t.pc
  | .fault _ => none
  | .refused _ => none

/-- The byte at an address after the step. -/
def byteOfResult (a : Word) : Result → Option Byte
  | .next t => t.mem.get? a.toNat
  | .fault _ => none
  | .refused _ => none

/-- The fault the step ends in. -/
def faultOfResult : Result → Option Fault
  | .next _ => none
  | .fault f => some f
  | .refused _ => none

/-! ## WellFormed: an ill-formed term for each check -/

theorem test_amount_32_is_ill_formed : (Instr.sli 3 1 32).wf = false ∧ (Instr.sri 3 1 36).wf = false ∧
    (Instr.srai 3 1 32).wf = false ∧ (Instr.srai 3 1 31).wf = true := by decide

theorem test_load_store_shift_16_is_ill_formed : (Instr.ldw 3 1 0 16).wf = false ∧ (Instr.ldhw 3 1 0 16).wf = false ∧
    (Instr.ldhwu 3 1 0 16).wf = false ∧ (Instr.ldb 3 1 0 16).wf = false ∧ (Instr.ldbu 3 1 0 16).wf = false ∧
    (Instr.stw 3 1 0 16).wf = false ∧ (Instr.sthw 3 1 0 16).wf = false ∧ (Instr.stb 3 1 0 16).wf = false ∧
    (Instr.stb 3 1 0 15).wf = true := by decide

theorem test_jump_shift_16_is_ill_formed : (Instr.j 1 16).wf = false ∧ (Instr.jl 15 1 16).wf = false ∧
    (Instr.jl 15 1 15).wf = true := by decide

theorem test_nop_and_halt_of_one_word_are_ill_formed :
    Config.wf { Config.defaults with encHalt := 0x00000000#32 } = false := by decide

theorem test_nop_or_halt_of_an_assigned_word_is_ill_formed :
    Config.wf { Config.defaults with encNop := 0x40C60002#32 } = false ∧
    Config.wf { Config.defaults with encHalt := 0x84160000#32 } = false ∧ Config.defaults.wf = true := by decide

/-! ## Decode: every constructor's word, from section 2.1 -/

theorem test_decode_arithmetic_words :
    decodeTableWord 32 0x40C60002 = some (.add 3 1 2) ∧
    decodeTableWord 32 0x40C40002 = some (.addu 3 1 2) ∧
    decodeTableWord 32 0x40C7FFFF = some (.addi 3 1 0xFFFF) ∧
    decodeTableWord 32 0x44C60002 = some (.sub 3 1 2) ∧
    decodeTableWord 32 0x44C40002 = some (.subu 3 1 2) ∧
    decodeTableWord 32 0x44470001 = some (.subi 1 1 1) := by decide

theorem test_decode_logic_words :
    decodeTableWord 32 0x50C40002 = some (.and 3 1 2) ∧
    decodeTableWord 32 0x50C500FF = some (.andi 3 1 0x00FF) ∧
    decodeTableWord 32 0x54C40002 = some (.or 3 1 2) ∧
    decodeTableWord 32 0x54C58000 = some (.ori 3 1 0x8000) ∧
    decodeTableWord 32 0x58C40002 = some (.xor 3 1 2) ∧
    decodeTableWord 32 0x58C5FFFF = some (.xori 3 1 0xFFFF) := by decide

theorem test_decode_shift_words :
    decodeTableWord 32 0x60C40002 = some (.sl 3 1 2) ∧
    decodeTableWord 32 0x60C50004 = some (.sli 3 1 4) ∧
    decodeTableWord 32 0x64C40002 = some (.sr 3 1 2) ∧
    decodeTableWord 32 0x64C5001F = some (.sri 3 1 31) ∧
    decodeTableWord 32 0x64C60002 = some (.sra 3 1 2) ∧
    decodeTableWord 32 0x64C70004 = some (.srai 3 1 4) := by decide

theorem test_decode_move_words :
    decodeTableWord 32 0x1CC00002 = some (.mov 3 2) ∧
    decodeTableWord 32 0x14C11234 = some (.movil 3 0x1234) ∧
    decodeTableWord 32 0x18C1ABCD = some (.movih 3 0xABCD) := by decide

theorem test_decode_load_words :
    decodeTableWord 32 0x2CC70004 = some (.ldw 3 1 4 0) ∧
    decodeTableWord 32 0x2CC72001 = some (.ldw 3 1 1 2) ∧
    decodeTableWord 32 0x24C70002 = some (.ldhw 3 1 2 0) ∧
    decodeTableWord 32 0x24C50002 = some (.ldhwu 3 1 2 0) ∧
    decodeTableWord 32 0x20C70FFF = some (.ldb 3 1 0xFFF 0) ∧
    decodeTableWord 32 0x20C50003 = some (.ldbu 3 1 3 0) ∧
    decodeTableWord 32 0x2FFFFFFF = some (.ldw 15 15 0xFFF 15) := by decide

theorem test_decode_store_words :
    decodeTableWord 32 0x3CC50008 = some (.stw 3 1 8 0) ∧
    decodeTableWord 32 0x34C50002 = some (.sthw 3 1 2 0) ∧
    decodeTableWord 32 0x30C50001 = some (.stb 3 1 1 0) := by decide

theorem test_decode_branch_words :
    decodeTableWord 32 0x90030004 = some (.beq 4) ∧
    decodeTableWord 32 0x9C03FFFE = some (.bne 0xFFFE) ∧
    decodeTableWord 32 0x98030001 = some (.bge 1) ∧
    decodeTableWord 32 0x9403FFFF = some (.blt 0xFFFF) := by decide

theorem test_decode_jump_words :
    decodeTableWord 32 0x80030010 = some (.j 0x10 0) ∧
    decodeTableWord 32 0x8013FFFF = some (.j 0xFFFF 4) ∧
    decodeTableWord 32 0x84160000 = some (.jr 5) ∧
    decodeTableWord 32 0x8BC30003 = some (.jl 15 3 0) ∧
    decodeTableWord 32 0x8BFF0001 = some (.jl 15 1 15) ∧
    decodeTableWord 32 0x8FBF0000 = some (.jlr 14 15 0) ∧
    decodeTableWord 32 0x8FD30002 = some (.jlr 15 4 2) := by decide

theorem test_decode_nop_halt_words :
    decodeTableWord 32 0x00000000 = some .nop ∧
    decodeTableWord 32 0x04000000 = some .halt := by decide

/-- The word of `ADD R3 R1 R2` written out bit by bit: opcode, Rd, Ra, ext, reserved, Rb (section 2.1, field check). -/
theorem test_decode_add_bit_by_bit :
    decode .defaults (0b010000#6 ++ 0b0011#4 ++ 0b0001#4 ++ 0b10#2 ++ 0b000000000000#12 ++ 0b0010#4) =
      .ok (.add 3 1 2) := by rfl

/-- `LDW R3 [R1] #1 << 2` bit by bit: opcode, Rv, Ra, ext, shift, Imm (R57). -/
theorem test_decode_ldw_bit_by_bit :
    decode .defaults (0b001011#6 ++ 0b0011#4 ++ 0b0001#4 ++ 0b11#2 ++ 0b0010#4 ++ 0b000000000001#12) =
      .ok (.ldw 3 1 1 2) := by rfl

/-- `JL R15` with Imm = 1, shift = 15 bit by bit: opcode, Rd, Imm shift, ext, Imm (R61). -/
theorem test_decode_jl_bit_by_bit :
    decode .defaults (0b100010#6 ++ 0b1111#4 ++ 0b1111#4 ++ 0b11#2 ++ 0b0000000000000001#16) =
      .ok (.jl 15 1 15) := by rfl

/-- Words with a reserved bit set (section 2.2, R77). -/
theorem test_reserved_bits_are_rejected :
    decode .defaults 0x40C60012#32 = .error (.reservedBitsSet 0x40C60012#32) ∧
    decode .defaults 0x1CC40002#32 = .error (.reservedBitsSet 0x1CC40002#32) ∧
    decode .defaults 0x14C51234#32 = .error (.reservedBitsSet 0x14C51234#32) ∧
    decode .defaults 0x60C50024#32 = .error (.reservedBitsSet 0x60C50024#32) ∧
    decode .defaults 0x90430004#32 = .error (.reservedBitsSet 0x90430004#32) ∧
    decode .defaults 0x80430010#32 = .error (.reservedBitsSet 0x80430010#32) ∧
    decode .defaults 0x84160001#32 = .error (.reservedBitsSet 0x84160001#32) :=
  ⟨rfl, rfl, rfl, rfl, rfl, rfl, rfl⟩

/-- Words of no row (section 2.2, R78, R80, R81). -/
theorem test_unassigned_words_are_rejected :
    decode .defaults 0xFFFFFFFF#32 = .error (.unassigned 0xFFFFFFFF#32) ∧
    decode .defaults 0x40C50002#32 = .error (.unassigned 0x40C50002#32) ∧
    decode .defaults 0x2CC50000#32 = .error (.unassigned 0x2CC50000#32) ∧
    decode .defaults 0x20C20000#32 = .error (.unassigned 0x20C20000#32) ∧
    decode .defaults 0x28C70000#32 = .error (.unassigned 0x28C70000#32) ∧
    decode .defaults 0x14C01234#32 = .error (.unassigned 0x14C01234#32) ∧
    decode .defaults 0x84030000#32 = .error (.unassigned 0x84030000#32) ∧
    decode .defaults 0x00000001#32 = .error (.unassigned 0x00000001#32) ∧
    decode .defaults 0x04000001#32 = .error (.unassigned 0x04000001#32) ∧
    decode .defaults 0x08000000#32 = .error (.unassigned 0x08000000#32) :=
  ⟨rfl, rfl, rfl, rfl, rfl, rfl, rfl, rfl, rfl, rfl⟩

/-- Fewer than four bytes are no instruction (R50); the bytes after the first four are left. -/
theorem test_decode_reads_four_bytes :
    decodeBytes .defaults [0x04, 0x00, 0x00] = .error .truncated ∧
    decodeBytes .defaults [0x40, 0xC6, 0x00, 0x02, 0xAA] = .ok (.add 3 1 2, [0xAA]) := ⟨rfl, rfl⟩

/-! ## One step of each instruction -/

/-- Section 2.3. -/
theorem test_add_overflows_and_wraps :
    regOfResult 3 (stepWord (stateWith 0x7FFFFFFF#32 0x00000001#32) 0x40C60002) = some 0x80000000#32 ∧
    regOfResult 3 (stepWord (stateWith 0x80000000#32 0x80000000#32) 0x40C60002) = some 0x00000000#32 ∧
    flagsOfResult (stepWord (stateWith 0x7FFFFFFF#32 0x00000001#32) 0x40C60002) = some ⟨false, true, true⟩ ∧
    flagsOfResult (stepWord (stateWith 0x80000000#32 0x80000000#32) 0x40C60002) = some ⟨true, false, true⟩ := by decide

/-- Section 2.3. -/
theorem test_addu_carries :
    regOfResult 3 (stepWord (stateWith 0xFFFFFFFF#32 0x00000001#32) 0x40C40002) = some 0x00000000#32 ∧
    regOfResult 3 (stepWord (stateWith 0x7FFFFFFF#32 0x00000001#32) 0x40C40002) = some 0x80000000#32 ∧
    flagsOfResult (stepWord (stateWith 0xFFFFFFFF#32 0x00000001#32) 0x40C40002) = some ⟨true, false, true⟩ ∧
    flagsOfResult (stepWord (stateWith 0x7FFFFFFF#32 0x00000001#32) 0x40C40002) = some ⟨false, false, false⟩ := by decide

/-- Section 2.3. -/
theorem test_sub_overflows :
    regOfResult 3 (stepWord (stateWith 0x00000000#32 0x80000000#32) 0x44C60002) = some 0x80000000#32 ∧
    regOfResult 3 (stepWord (stateWith 0x80000000#32 0x00000001#32) 0x44C60002) = some 0x7FFFFFFF#32 ∧
    flagsOfResult (stepWord (stateWith 0x00000000#32 0x80000000#32) 0x44C60002) = some ⟨false, true, true⟩ ∧
    flagsOfResult (stepWord (stateWith 0x80000000#32 0x00000001#32) 0x44C60002) = some ⟨false, false, true⟩ := by decide

/-- Section 2.3. -/
theorem test_subu_borrows :
    regOfResult 3 (stepWord (stateWith 0x00000001#32 0x00000002#32) 0x44C40002) = some 0xFFFFFFFF#32 ∧
    regOfResult 3 (stepWord (stateWith 0xFFFFFFFF#32 0x00000001#32) 0x44C40002) = some 0xFFFFFFFE#32 ∧
    flagsOfResult (stepWord (stateWith 0x00000001#32 0x00000002#32) 0x44C40002) = some ⟨false, false, true⟩ ∧
    flagsOfResult (stepWord (stateWith 0xFFFFFFFF#32 0x00000001#32) 0x44C40002) = some ⟨false, false, false⟩ := by decide

/-- Section 2.4. -/
theorem test_addi_sign_extends :
    regOfResult 3 (stepWord (stateWith 0x00010000#32 0x0#32) 0x40C78000) = some 0x00008000#32 ∧
    flagsOfResult (stepWord (stateWith 0x80000000#32 0x0#32) 0x40C7FFFF) = some ⟨false, false, true⟩ := by decide

/-- Section 2.4. -/
theorem test_subi_sign_extends :
    regOfResult 3 (stepWord (stateWith 0x00000000#32 0x0#32) 0x44C78000) = some 0x00008000#32 ∧
    flagsOfResult (stepWord (stateWith 0x7FFFFFFF#32 0x0#32) 0x44C7FFFF) = some ⟨false, true, true⟩ := by decide

/-- Section 2.3, the same register as source and destination. -/
theorem test_add_with_one_register_for_all :
    regOfResult 1 (stepWord (stateWith 0x40000000#32 0x0#32) 0x40460001) = some 0x80000000#32 := by decide

/-- Section 2.5. -/
theorem test_and :
    regOfResult 3 (stepWord (stateWith 0x12345678#32 0x0F0F0F0F#32) 0x50C40002) = some 0x02040608#32 := by decide

/-- Section 2.5. -/
theorem test_andi_sign_extends :
    regOfResult 3 (stepWord (stateWith 0x12345678#32 0x0#32) 0x50C58000) = some 0x12340000#32 := by decide

/-- Section 2.5. -/
theorem test_or :
    regOfResult 3 (stepWord (stateWith 0x12345678#32 0x0F0F0F0F#32) 0x54C40002) = some 0x1F3F5F7F#32 := by decide

/-- Section 2.5. -/
theorem test_ori_sign_extends :
    regOfResult 3 (stepWord (stateWith 0x12345678#32 0x0#32) 0x54C58000) = some 0xFFFFD678#32 := by decide

/-- Section 2.5. -/
theorem test_xor :
    regOfResult 3 (stepWord (stateWith 0x12345678#32 0x0F0F0F0F#32) 0x58C40002) = some 0x1D3B5977#32 := by decide

/-- Section 2.5; the word is also `NOT R3 R1`. -/
theorem test_xori_sign_extends :
    regOfResult 3 (stepWord (stateWith 0x12345678#32 0x0#32) 0x58C5FFFF) = some 0xEDCBA987#32 := by decide

/-- Section 2.6. -/
theorem test_sl_uses_five_bits :
    regOfResult 3 (stepWord (stateWith 0x80000001#32 0x00000021#32) 0x60C40002) = some 0x00000002#32 ∧
    regOfResult 3 (stepWord (stateWith 0x80000001#32 0x00000020#32) 0x60C40002) = some 0x80000001#32 := by decide

/-- Section 2.6. -/
theorem test_sli :
    regOfResult 3 (stepWord (stateWith 0x12345678#32 0x0#32) 0x60C50004) = some 0x23456780#32 ∧
    regOfResult 3 (stepWord (stateWith 0x00000001#32 0x0#32) 0x60C5001F) = some 0x80000000#32 := by decide

/-- Section 2.6. -/
theorem test_sr_is_logical :
    regOfResult 3 (stepWord (stateWith 0x80000001#32 0x0000001F#32) 0x64C40002) = some 0x00000001#32 ∧
    regOfResult 3 (stepWord (stateWith 0x80000001#32 0x00000021#32) 0x64C40002) = some 0x40000000#32 := by decide

/-- Section 2.6. -/
theorem test_sri_is_logical :
    regOfResult 3 (stepWord (stateWith 0xF0000000#32 0x0#32) 0x64C50004) = some 0x0F000000#32 := by decide

/-- Section 2.6. -/
theorem test_sra_is_arithmetic :
    regOfResult 3 (stepWord (stateWith 0x80000001#32 0x0000001F#32) 0x64C60002) = some 0xFFFFFFFF#32 ∧
    regOfResult 3 (stepWord (stateWith 0x7FFFFFFF#32 0x0000001F#32) 0x64C60002) = some 0x00000000#32 := by decide

/-- Section 2.6. -/
theorem test_srai_is_arithmetic :
    regOfResult 3 (stepWord (stateWith 0xFFFFFF00#32 0x0#32) 0x64C70004) = some 0xFFFFFFF0#32 := by decide

/-- Section 2.7. -/
theorem test_mov :
    regOfResult 3 (stepWord (stateWith 0x0#32 0xCAFEBABE#32) 0x1CC00002) = some 0xCAFEBABE#32 := by decide

/-- Section 2.7, with R1 for R3. -/
theorem test_movil_keeps_the_high_half :
    regOfResult 1 (stepWord (stateWith 0xAAAA5555#32 0x0#32) 0x14411234) = some 0xAAAA1234#32 := by decide

/-- Section 2.7, with R1 for R3. -/
theorem test_movih_keeps_the_low_half :
    regOfResult 1 (stepWord (stateWith 0xAAAA1234#32 0x0#32) 0x1841ABCD) = some 0xABCD1234#32 := by decide

/-- Section 2.9. -/
theorem test_ldw_is_big_endian :
    regOfResult 3 (stepWord (dataState 0x100#32 0#32) 0x2CC70000) = some 0x8102F304#32 ∧
    regOfResult 3 (stepWord (dataState 0x100#32 0#32) 0x2CC72001) = some 0x7FFF8000#32 := by decide

/-- Section 2.9. -/
theorem test_ldhw_sign_extends :
    regOfResult 3 (stepWord (dataState 0x100#32 0#32) 0x24C70002) = some 0xFFFFF304#32 ∧
    regOfResult 3 (stepWord (dataState 0x100#32 0#32) 0x24C70004) = some 0x00007FFF#32 := by decide

/-- Section 2.9. -/
theorem test_ldhwu_zero_extends :
    regOfResult 3 (stepWord (dataState 0x100#32 0#32) 0x24C50006) = some 0x00008000#32 := by decide

/-- Section 2.9. -/
theorem test_ldb_sign_extends :
    regOfResult 3 (stepWord (dataState 0x100#32 0#32) 0x20C70000) = some 0xFFFFFF81#32 ∧
    regOfResult 3 (stepWord (dataState 0x100#32 0#32) 0x20C70001) = some 0x00000002#32 := by decide

/-- Section 2.9. -/
theorem test_ldbu_zero_extends :
    regOfResult 3 (stepWord (dataState 0x100#32 0#32) 0x20C50005) = some 0x000000FF#32 := by decide

/-- Section 2.9, with R2 for R3: the bytes at 0x100 .. 0x107 afterwards. -/
theorem test_stw_is_big_endian :
    byteOfResult 0x100#32 (stepWord (dataState 0x100#32 0xA1B2C3D4#32) 0x3C850004) = some 0x81#8 ∧
    byteOfResult 0x101#32 (stepWord (dataState 0x100#32 0xA1B2C3D4#32) 0x3C850004) = some 0x02#8 ∧
    byteOfResult 0x102#32 (stepWord (dataState 0x100#32 0xA1B2C3D4#32) 0x3C850004) = some 0xF3#8 ∧
    byteOfResult 0x103#32 (stepWord (dataState 0x100#32 0xA1B2C3D4#32) 0x3C850004) = some 0x04#8 ∧
    byteOfResult 0x104#32 (stepWord (dataState 0x100#32 0xA1B2C3D4#32) 0x3C850004) = some 0xA1#8 ∧
    byteOfResult 0x105#32 (stepWord (dataState 0x100#32 0xA1B2C3D4#32) 0x3C850004) = some 0xB2#8 ∧
    byteOfResult 0x106#32 (stepWord (dataState 0x100#32 0xA1B2C3D4#32) 0x3C850004) = some 0xC3#8 ∧
    byteOfResult 0x107#32 (stepWord (dataState 0x100#32 0xA1B2C3D4#32) 0x3C850004) = some 0xD4#8 := by decide

/-- Section 2.9, with R2 for R3. -/
theorem test_sthw_stores_the_low_half :
    byteOfResult 0x100#32 (stepWord (dataState 0x100#32 0xA1B2C3D4#32) 0x34850006) = some 0x81#8 ∧
    byteOfResult 0x101#32 (stepWord (dataState 0x100#32 0xA1B2C3D4#32) 0x34850006) = some 0x02#8 ∧
    byteOfResult 0x102#32 (stepWord (dataState 0x100#32 0xA1B2C3D4#32) 0x34850006) = some 0xF3#8 ∧
    byteOfResult 0x103#32 (stepWord (dataState 0x100#32 0xA1B2C3D4#32) 0x34850006) = some 0x04#8 ∧
    byteOfResult 0x104#32 (stepWord (dataState 0x100#32 0xA1B2C3D4#32) 0x34850006) = some 0x7F#8 ∧
    byteOfResult 0x105#32 (stepWord (dataState 0x100#32 0xA1B2C3D4#32) 0x34850006) = some 0xFF#8 ∧
    byteOfResult 0x106#32 (stepWord (dataState 0x100#32 0xA1B2C3D4#32) 0x34850006) = some 0xC3#8 ∧
    byteOfResult 0x107#32 (stepWord (dataState 0x100#32 0xA1B2C3D4#32) 0x34850006) = some 0xD4#8 := by decide

/-- Section 2.9, with R2 for R3. -/
theorem test_stb_stores_the_low_byte :
    byteOfResult 0x100#32 (stepWord (dataState 0x100#32 0xA1B2C3D4#32) 0x30852001) = some 0x81#8 ∧
    byteOfResult 0x101#32 (stepWord (dataState 0x100#32 0xA1B2C3D4#32) 0x30852001) = some 0x02#8 ∧
    byteOfResult 0x102#32 (stepWord (dataState 0x100#32 0xA1B2C3D4#32) 0x30852001) = some 0xF3#8 ∧
    byteOfResult 0x103#32 (stepWord (dataState 0x100#32 0xA1B2C3D4#32) 0x30852001) = some 0x04#8 ∧
    byteOfResult 0x104#32 (stepWord (dataState 0x100#32 0xA1B2C3D4#32) 0x30852001) = some 0xD4#8 ∧
    byteOfResult 0x105#32 (stepWord (dataState 0x100#32 0xA1B2C3D4#32) 0x30852001) = some 0xFF#8 ∧
    byteOfResult 0x106#32 (stepWord (dataState 0x100#32 0xA1B2C3D4#32) 0x30852001) = some 0x80#8 ∧
    byteOfResult 0x107#32 (stepWord (dataState 0x100#32 0xA1B2C3D4#32) 0x30852001) = some 0x00#8 := by decide

/-- Section 2.8: ea with a negative, a scaled and a wrapping displacement. -/
theorem test_effective_address :
    (stateWith 0x100#32 0#32).ea 1 0xFFE 2 = 0x000000F8#32 ∧ (stateWith 0#32 0#32).ea 1 0x800 15 = 0xFC000000#32 ∧
    (stateWith 0xFFFFFFFC#32 0#32).ea 1 0x001 2 = 0x00000000#32 := by decide

/-- A state at pc 0x1000 with the flags Z, N, V. -/
def branchState (z n v : Bool) : State := (State.reset.setPc 0x1000#32).setFlags ⟨z, n, v⟩

/-- Section 2.10. -/
theorem test_beq_is_taken_by_its_flags :
    pcOfResult (stepWord (branchState false false false) 0x90030002) = some 0x00001004#32 ∧
    pcOfResult (stepWord (branchState false true true) 0x90030002) = some 0x00001004#32 ∧
    pcOfResult (stepWord (branchState true false false) 0x90030002) = some 0x00001008#32 ∧
    pcOfResult (stepWord (branchState true true true) 0x90030002) = some 0x00001008#32 := by decide

/-- Section 2.10. -/
theorem test_bne_is_taken_by_its_flags :
    pcOfResult (stepWord (branchState false false false) 0x9C038000) = some 0xFFFE1000#32 ∧
    pcOfResult (stepWord (branchState false true true) 0x9C038000) = some 0xFFFE1000#32 ∧
    pcOfResult (stepWord (branchState true false false) 0x9C038000) = some 0x00001004#32 ∧
    pcOfResult (stepWord (branchState true true true) 0x9C038000) = some 0x00001004#32 := by decide

/-- Section 2.10. -/
theorem test_bge_is_taken_by_its_flags :
    pcOfResult (stepWord (branchState false false false) 0x98037FFF) = some 0x00020FFC#32 ∧
    pcOfResult (stepWord (branchState false false true) 0x98037FFF) = some 0x00001004#32 ∧
    pcOfResult (stepWord (branchState false true false) 0x98037FFF) = some 0x00001004#32 ∧
    pcOfResult (stepWord (branchState false true true) 0x98037FFF) = some 0x00020FFC#32 ∧
    pcOfResult (stepWord (branchState true false false) 0x98037FFF) = some 0x00020FFC#32 ∧
    pcOfResult (stepWord (branchState true false true) 0x98037FFF) = some 0x00001004#32 ∧
    pcOfResult (stepWord (branchState true true false) 0x98037FFF) = some 0x00001004#32 ∧
    pcOfResult (stepWord (branchState true true true) 0x98037FFF) = some 0x00020FFC#32 := by decide

/-- Section 2.10. -/
theorem test_blt_is_taken_by_its_flags :
    pcOfResult (stepWord (branchState false false false) 0x9403FFFE) = some 0x00001004#32 ∧
    pcOfResult (stepWord (branchState false false true) 0x9403FFFE) = some 0x00000FF8#32 ∧
    pcOfResult (stepWord (branchState false true false) 0x9403FFFE) = some 0x00000FF8#32 ∧
    pcOfResult (stepWord (branchState false true true) 0x9403FFFE) = some 0x00001004#32 ∧
    pcOfResult (stepWord (branchState true false false) 0x9403FFFE) = some 0x00001004#32 ∧
    pcOfResult (stepWord (branchState true false true) 0x9403FFFE) = some 0x00000FF8#32 ∧
    pcOfResult (stepWord (branchState true true false) 0x9403FFFE) = some 0x00000FF8#32 ∧
    pcOfResult (stepWord (branchState true true true) 0x9403FFFE) = some 0x00001004#32 := by decide

/-- Section 2.11. -/
theorem test_j :
    pcOfResult (stepWord (branchState false false false) 0x8013FFFF) = some 0x00000FC0#32 ∧
    pcOfResult (stepWord (branchState false false false) 0x803F4000) = some 0x80001000#32 ∧
    pcOfResult (stepWord (branchState false false false) 0x803F8000) = some 0x00001000#32 := by decide

/-- Section 2.11. -/
theorem test_jl_links :
    pcOfResult (stepWord (branchState false false false) 0x8BFF0001) = some 0x00021000#32 ∧
    regOfResult 15 (stepWord (branchState false false false) 0x8BFF0001) = some 0x00001004#32 := by decide

/-- Section 2.11: the register is a byte displacement from the pc. -/
theorem test_jr_is_relative :
    pcOfResult (stepWord ((State.reset.setPc 0x100#32).writeReg 5 0xFFFFFFF0#32) 0x84160000) = some 0x000000F0#32 ∧
    pcOfResult (stepWord ((State.reset.setPc 0x100#32).writeReg 5 0x00000002#32) 0x84160000) = some 0x00000102#32 := by
  decide

/-- Section 2.11: absolute, Imm counts words; the old register where Rd is Ra. -/
theorem test_jlr_is_absolute :
    pcOfResult (stepWord ((State.reset.setPc 0x100#32).writeReg 4 0x200#32) 0x8FD30002) = some 0x00000208#32 ∧
    regOfResult 15 (stepWord ((State.reset.setPc 0x100#32).writeReg 4 0x200#32) 0x8FD30002) = some 0x00000104#32 ∧
    pcOfResult (stepWord ((State.reset.setPc 0x100#32).writeReg 15 0x40#32) 0x8FFF0000) = some 0x00000040#32 := by
  decide

/-- R165, R17: the instruction after the last word of the address space is at 0. -/
theorem test_nop_wraps :
    pcOfResult (stepWord (State.reset.setPc 0xFFFFFFFC#32) 0x00000000) = some 0x00000000#32 := by decide

/-- R166: the pc stays at the HALT and the latch is set. -/
theorem test_halt :
    pcOfResult (stepWord (stateWith 0#32 0#32) 0x04000000) = some 0x00000010#32 ∧
    (match stepWord (stateWith 0#32 0#32) 0x04000000 with
      | .next t => t.halted
      | .fault _ => false
      | .refused _ => false) = true := by decide

/-! ## Faults and their order: section 2.12 -/

theorem test_fetch_faults :
    faultOfResult (step ((stateWith 0#32 0#32).setPc 0x102#32)) = some (.misalignedFetch 0x102#32) ∧
    faultOfResult (step ((stateWith 0#32 0#32).setPc 0x200#32)) = some (.accessFault 0x200#32) ∧
    faultOfResult (step ((stateWith 0#32 0#32).setPc 0x202#32)) = some (.misalignedFetch 0x202#32) ∧
    faultOfResult (stepWord (stateWith 0#32 0#32) 0xFFFFFFFF) = some (.illegalInstruction 0x10#32 0xFFFFFFFF#32) := by
  decide

theorem test_data_faults :
    faultOfResult (stepWord (stateWith 0x102#32 0#32) 0x2C870000) = some (.misalignedAccess 0x102#32) ∧
    faultOfResult (stepWord (stateWith 0x100#32 0#32) 0x34850001) = some (.misalignedAccess 0x101#32) ∧
    faultOfResult (stepWord (stateWith 0x202#32 0#32) 0x2C870000) = some (.misalignedAccess 0x202#32) ∧
    faultOfResult (stepWord (stateWith 0x200#32 0#32) 0x30850000) = some (.accessFault 0x200#32) ∧
    faultOfResult (stepWord (stateWith 0x000#32 0#32) 0x20870FFF) = some (.accessFault 0xFFFFFFFF#32) := by decide

/-! ## Assembly: R83, R84, R86 -/

theorem test_assembly_text :
    assemblyText 0 (.add 3 1 2) = "ADD R3 R1 R2" ∧ assemblyText 0 (.ldw 3 1 1 2) = "LDW R3 [R1] #1 << 2" ∧
    assemblyText 0x100#32 (.beq 4) = "BEQ 272" ∧ assemblyText 0 (.jlr 14 15 0) = "JLR R14 R15 #0" := by decide

/-- P1 of section 3: the BNE at 0x18 reaches 0x10 with Imm = -2; R86: a J that one Imm reaches has shift 0. -/
theorem test_where_fields :
    branchFields 0x18#32 0x10#32 = some 0xFFFE#16 ∧ jumpFields 0x1C#32 0x0C#32 = some (0xFFFC#16, 0) := by decide

/-! ## Memory keeps its canonical form -/

theorem test_memory_is_canonical :
    (Memory.put (Memory.put (Memory.put [] 5 0x01#8) 2 0x02#8) 5 0x03#8) = [(2, 0x02#8), (5, 0x03#8)] := by decide

/-! ## Witnesses: states and operands that meet the hypotheses of an obligation together -/

/-- The state in which `add R3 R1 R2` stands at the pc 0x10. -/
def addState : State := (stateWith 0x7FFFFFFF#32 1#32).withFetchWord 32 0x40C60002

/-- The state in which a word that is no instruction stands at the pc. -/
def illegalState : State := (stateWith 0#32 0#32).withFetchWord 32 0xFFFFFFFF

/-- The state in which HALT stands at the pc. -/
def haltState : State := (stateWith 0#32 0#32).withFetchWord 32 0x04000000

/-- The state in which `LDW R2 [R1] #0 << 0` stands at the pc. -/
def loadState (a : Word) : State := (stateWith a 0#32).withFetchWord 32 0x2C870000

/-- EncodedFieldsStandAtTheirBits: both ends of both ranges. -/
theorem witness_field_ranges : (31 < 32 ∧ 15 < 16) ∧ (0 < 32 ∧ 0 < 16) := by decide

/-- DecodingAnEncodedInstructionGivesItBack: instructions at the ends of their ranges, and NOP and HALT. -/
theorem witness_well_formed : Config.defaults.wf = true ∧ (Instr.srai 15 0 31).wf = true ∧
    (Instr.ldw 15 15 0xFFF 15).wf = true ∧ (Instr.jl 15 0x8000 15).wf = true ∧ Instr.nop.wf = true ∧
    Instr.halt.wf = true := by decide

/-- EncodingADecodedWordGivesItBack, StepRunsTheDecodedInstruction. -/
theorem witness_decodes : decode .defaults 0x2FFFFFFF#32 = .ok (.ldw 15 15 0xFFF 15) := rfl

/-- WordDecodesByItsOneRowOrIsIllegal: a word of a row, NOP's own row among the rows, and a word of no row. -/
theorem witness_fetched_word :
    smallConfig.wf = true ∧
    (addState.config.wf = true ∧ addState.halted = false ∧ fetch addState = .ok 0x40C60002#32 ∧
      ∃ r ∈ addState.config.rows, 0x40C60002#32 &&& r.mask = r.pattern) ∧
    (illegalState.config.wf = true ∧ illegalState.halted = false ∧ fetch illegalState = .ok 0xFFFFFFFF#32 ∧
      ∀ r ∈ illegalState.config.rows, 0xFFFFFFFF#32 &&& r.mask ≠ r.pattern) :=
  ⟨by decide, ⟨by decide, rfl, rfl, by decide⟩, ⟨by decide, rfl, rfl, by decide⟩⟩

/-- ReservedBitSetIsNoInstruction: ADD with bit 4 set, the legacy MOV, JR with bit 0 set. -/
theorem witness_reserved_bits :
    (0x40C60012#32 ≠ Config.defaults.encNop ∧ 0x40C60012#32 ≠ Config.defaults.encHalt ∧
      0x40C60012#32 &&& 0xFC030000#32 = 0x40020000#32 ∧ 0x40C60012#32 &&& 0x0000FFF0#32 ≠ 0#32) ∧
    (0x1CC40002#32 ≠ Config.defaults.encNop ∧ 0x1CC40002#32 ≠ Config.defaults.encHalt ∧
      0x1CC40002#32 &&& 0xFC030000#32 = 0x1C000000#32 ∧ 0x1CC40002#32 &&& 0x003CFFF0#32 ≠ 0#32) ∧
    (0x84160001#32 ≠ Config.defaults.encNop ∧ 0x84160001#32 ≠ Config.defaults.encHalt ∧
      0x84160001#32 &&& 0xFC030000#32 = 0x84020000#32 ∧ 0x84160001#32 &&& 0x03C0FFFF#32 ≠ 0#32) :=
  ⟨by decide, by decide, by decide⟩

/-- EmptyCellOfTheOpcodeMapIsNoInstruction: LDW with ext 01 and an unassigned opcode have cells outside the list. -/
theorem witness_empty_cells :
    (0x2CC50000#32 ≠ Config.defaults.encNop ∧ 0x2CC50000#32 ≠ Config.defaults.encHalt ∧
      0x2CC50000#32 &&& 0xFC030000#32 ∉ opcodeTable.map (·.pattern &&& 0xFC030000#32)) ∧
    (0x04000001#32 ≠ Config.defaults.encNop ∧ 0x04000001#32 ≠ Config.defaults.encHalt ∧
      0x04000001#32 &&& 0xFC030000#32 ∉ opcodeTable.map (·.pattern &&& 0xFC030000#32)) :=
  ⟨by decide, by decide⟩

/-- ResetStartsRunningAtResetPc: a loaded HALT at RESET_PC. -/
theorem witness_loaded_program :
    aligned Config.defaults.resetPc .word = true ∧
    memRead32 (State.resetWith .defaults [(0, 0x04#8), (1, 0#8), (2, 0#8), (3, 0#8)]) Config.defaults.resetPc =
      .ok 0x04000000#32 ∧
    decode .defaults 0x04000000#32 = .ok .halt := ⟨by decide, rfl, rfl⟩

/-- InvariantHoldsAtReset: a loaded memory in canonical form, at both ends of the address space. -/
theorem witness_loaded_memory :
    Memory.wf [(0, 0x04#8), (4294967295, 0xFF#8)] ∧
    ∀ p ∈ [(0, 0x04#8), (4294967295, 0xFF#8)], mapped .defaults (BitVec.ofNat 32 (Prod.fst (β := Byte) p)) = true := by
  decide

/-- EveryStepKeepsTheInvariant, StepsKeepParametersAndPowerUp, OnlyTheDestinationAndStoredBytesChange (and its clause of
a store): a state with the invariant steps by a store. -/
theorem witness_step_with_invariant :
    Inv ((dataState 0x100#32 0xA1B2C3D4#32).withFetchWord 32 0x3C850004) ∧
    (∃ t, step ((dataState 0x100#32 0xA1B2C3D4#32).withFetchWord 32 0x3C850004) = .next t) ∧
    ∃ t, exec (.stw 2 1 4 0) (dataState 0x100#32 0xA1B2C3D4#32) = .next t :=
  ⟨⟨by decide, by decide⟩, ⟨_, rfl⟩, ⟨_, rfl⟩⟩

/-- MemReadChecksThenReadsBigEndian, MemWriteChecksThenWritesBigEndian, LoadsReadTheirBytesIntoRv,
StoresWriteTheirBytesAndNothingElse, LoadsAndStoresFaultByAlignmentThenMap, LoadAfterStoreReturnsWhatWasStored: the last
accesses inside the map, the first outside it, and misaligned ones. -/
theorem witness_accesses :
    (mapped smallConfig 0x1FF#32 = true ∧ mapped smallConfig 0x200#32 = false) ∧
    ((0x1FE#32).toNat % 2 = 0 ∧ mapped smallConfig 0x1FE#32 = true ∧ mapped smallConfig (0x1FE#32 + 1#32) = true) ∧
    ((0x200#32).toNat % 2 = 0 ∧ (mapped smallConfig 0x200#32 && mapped smallConfig (0x200#32 + 1#32)) = false) ∧
    (0x1FF#32).toNat % 2 ≠ 0 ∧
    ((0x1FC#32).toNat % 4 = 0 ∧ ∀ k, k < 4 → mapped smallConfig (0x1FC#32 + BitVec.ofNat 32 k) = true) ∧
    ((0x200#32).toNat % 4 = 0 ∧ ∃ k, k < 4 ∧ mapped smallConfig (0x200#32 + BitVec.ofNat 32 k) = false) ∧
    (0x1FE#32).toNat % 4 ≠ 0 ∧
    (∀ w : Width, w = .byte ∨ w = .half ∨ w = .word →
      (0x1FC#32).toNat % w.bytes = 0 ∧ ∀ k, k < w.bytes → mapped smallConfig (0x1FC#32 + BitVec.ofNat 32 k) = true) ∧
    (stateWith 0x1FC#32 0#32).ea 1 0 0 = 0x1FC#32 ∧ (stateWith 0x1FC#32 0#32).config = smallConfig := by
  refine ⟨by decide, by decide, by decide, by decide, by decide, ⟨by decide, 0, by decide⟩, by decide, ?_, by decide, rfl⟩
  rintro w (rfl | rfl | rfl) <;> decide

/-- LoadAfterStoreReturnsWhatWasStored, in its own words. -/
theorem witness_load_after_store :
    aligned ((stateWith 0x1FC#32 7#32).ea 1 0 0) .word = true ∧
    mappedAccess smallConfig ((stateWith 0x1FC#32 7#32).ea 1 0 0) .word = true ∧
    aligned ((stateWith 0x1FC#32 7#32).ea 1 2 0) .half = true ∧
    mappedAccess smallConfig ((stateWith 0x1FC#32 7#32).ea 1 2 0) .half = true ∧
    mapped smallConfig ((stateWith 0x1FC#32 7#32).ea 1 3 0) = true := by decide

/-- LoadsAndStoresFaultByAlignmentThenMap, StepReportsTheFirstFaultInOrder, NoInstructionIsRefused: the eight accesses,
and an instruction with none. -/
theorem witness_access_of_each_load_and_store :
    (Instr.ldw 2 1 0 0).access = some (.word, 1, 0, 0) ∧ (Instr.ldhw 2 1 0 0).access = some (.half, 1, 0, 0) ∧
    (Instr.ldhwu 2 1 0 0).access = some (.half, 1, 0, 0) ∧ (Instr.ldb 2 1 0 0).access = some (.byte, 1, 0, 0) ∧
    (Instr.ldbu 2 1 0 0).access = some (.byte, 1, 0, 0) ∧ (Instr.stw 2 1 0 0).access = some (.word, 1, 0, 0) ∧
    (Instr.sthw 2 1 0 0).access = some (.half, 1, 0, 0) ∧ (Instr.stb 2 1 0 0).access = some (.byte, 1, 0, 0) ∧
    Instr.halt.access = none :=
  ⟨rfl, rfl, rfl, rfl, rfl, rfl, rfl, rfl, rfl⟩

/-- FetchReadsTheInstructionWordBigEndian. -/
theorem witness_fetch : fetch addState = .ok 0x40C60002#32 := rfl

/-- StoredInstructionIsWhatTheNextFetchRuns: STW stores HALT's word at 0x1FC; the later state is the one after it with
the pc there. -/
theorem witness_stored_instruction :
    (stateWith 0x1FC#32 0x04000000#32).config.wf = true ∧ Instr.halt.wf = true ∧
    (stateWith 0x1FC#32 0x04000000#32).readReg 2 = encode smallConfig .halt ∧
    ∃ t, exec (.stw 2 1 0 0) (stateWith 0x1FC#32 0x04000000#32) = .next t ∧
      (t.setPc 0x1FC#32).pc = (stateWith 0x1FC#32 0x04000000#32).ea 1 0 0 ∧ (t.setPc 0x1FC#32).halted = false ∧
      (t.setPc 0x1FC#32).config = t.config ∧
      ∀ k, k < 4 → (t.setPc 0x1FC#32).byteAt ((stateWith 0x1FC#32 0x04000000#32).ea 1 0 0 + BitVec.ofNat 32 k) =
        t.byteAt ((stateWith 0x1FC#32 0x04000000#32).ea 1 0 0 + BitVec.ofNat 32 k) :=
  ⟨by decide, rfl, by decide, _, rfl, by decide, rfl, rfl, fun _ _ => rfl⟩

/-- FetchSeesTheBytesOfEveryStore: STB, STHW and STW to the text at 0x1FC, fetched there afterwards; the last byte of
the fetched word is one that each stores, and STB leaves the first as it was. -/
theorem witness_store_into_text :
    (∀ p ∈ [(Instr.stb 2 1 3 0, Width.byte), (.sthw 2 1 2 0, .half), (.stw 2 1 0 0, .word)],
      ∃ t, exec p.1 (stateWith 0x1FC#32 0x04000000#32) = .next t ∧ (t.setPc 0x1FC#32).pc.toNat % 4 = 0 ∧
        (∀ k, k < 4 → mapped (t.setPc 0x1FC#32).config ((t.setPc 0x1FC#32).pc + BitVec.ofNat 32 k) = true) ∧
        ∀ k, k < 4 → (t.setPc 0x1FC#32).byteAt ((t.setPc 0x1FC#32).pc + BitVec.ofNat 32 k) =
          t.byteAt ((t.setPc 0x1FC#32).pc + BitVec.ofNat 32 k)) ∧
    (stateWith 0x1FC#32 0x04000000#32).ea 1 3 0 = 0x1FF#32 ∧ 0x1FC#32 + BitVec.ofNat 32 3 = 0x1FF#32 + BitVec.ofNat 32 0 ∧
    (∀ j, j < Width.byte.bytes → 0x1FC#32 + BitVec.ofNat 32 0 ≠ 0x1FF#32 + BitVec.ofNat 32 j) := by
  refine ⟨fun p hp => ?_, by decide, by decide, by decide⟩
  simp only [List.mem_cons, List.not_mem_nil, or_false] at hp
  rcases hp with rfl | rfl | rfl <;> exact ⟨_, rfl, by decide, by decide, fun _ _ => rfl⟩

/-- SignedArithmeticFlagsReportTheExactResult, UnsignedArithmeticFlagsReportCarryAndBorrow,
BranchesReadTheFlagsAsComparisons: each of the forms has operands at the edge of overflow. -/
theorem witness_operands :
    (stateWith 0x7FFFFFFF#32 1#32).readReg 1 = 0x7FFFFFFF#32 ∧ (stateWith 0x7FFFFFFF#32 1#32).readReg 2 = 1#32 ∧
    (0xFFFF#16).signExtend 32 = 0xFFFFFFFF#32 ∧ 0x7FFFFFFF#32 + 1#32 = 0x80000000#32 := by decide

/-- OnlySixInstructionsWriteTheFlags: an instruction of each kind completes. -/
theorem witness_flag_writers :
    (Instr.and 3 1 2).writesFlags = false ∧ (∃ t, exec (.and 3 1 2) addState = .next t) ∧
    (Instr.add 3 1 2).writesFlags = true ∧ (∃ t, exec (.add 3 1 2) addState = .next t) :=
  ⟨rfl, ⟨_, rfl⟩, rfl, ⟨_, rfl⟩⟩

/-- BranchesReadTheFlagsAsComparisons: instructions that read no flag complete or fault. -/
theorem witness_flag_readers :
    (Instr.add 3 1 2).readsFlags = false ∧ (∃ t, exec (.add 3 1 2) addState = .next t) ∧
    (Instr.ldw 2 1 0 0).readsFlags = false ∧ (∃ f, exec (.ldw 2 1 0 0) (stateWith 0x102#32 0#32) = .fault f) :=
  ⟨rfl, ⟨_, rfl⟩, rfl, ⟨_, rfl⟩⟩

/-- FlagsAreObservableOnlyThroughTwoPredicates: different flags that agree, and flags that do not. -/
theorem witness_flags_agree : FlagsAgree ⟨false, true, true⟩ ⟨false, false, false⟩ ∧
    FlagsAgree ⟨true, true, false⟩ ⟨true, false, true⟩ ∧ ¬ FlagsAgree ⟨false, true, false⟩ ⟨false, false, false⟩ :=
  ⟨⟨rfl, rfl⟩, ⟨rfl, rfl⟩, fun h => by cases h.2⟩

/-- DecodesTo, in the statements of each family: for every row of the opcode table a word of section 2.1 belongs to it. -/
theorem witness_words_of_the_rows :
    (∀ r ∈ moveRows,
      [0x1CC00002#32, 0x14C11234#32, 0x18C1ABCD#32].any (r.fits ·) = true) ∧
    (∀ r ∈ loadRows,
      [0x2CC70004#32, 0x24C70002#32, 0x24C50002#32, 0x20C70FFF#32, 0x20C50003#32].any (r.fits ·) = true) ∧
    (∀ r ∈ storeRows,
      [0x3CC50008#32, 0x34C50002#32, 0x30C50001#32].any (r.fits ·) = true) ∧
    (∀ r ∈ arithmeticRows,
      [0x40C60002#32, 0x40C40002#32, 0x40C7FFFF#32, 0x44C60002#32, 0x44C40002#32, 0x44470001#32].any (r.fits ·) = true) ∧
    (∀ r ∈ logicRows,
      [0x50C40002#32, 0x50C500FF#32, 0x54C40002#32, 0x54C58000#32, 0x58C40002#32, 0x58C5FFFF#32].any (r.fits ·) = true) ∧
    (∀ r ∈ shiftRows,
      [0x60C40002#32, 0x60C50004#32, 0x64C40002#32, 0x64C5001F#32, 0x64C60002#32, 0x64C70004#32].any (r.fits ·) = true) ∧
    (∀ r ∈ jumpRows,
      [0x80030010#32, 0x84160000#32, 0x8BC30003#32, 0x8FBF0000#32].any (r.fits ·) = true) ∧
    (∀ r ∈ branchRows,
      [0x90030004#32, 0x9C03FFFE#32, 0x98030001#32, 0x9403FFFF#32].any (r.fits ·) = true) :=
  ⟨by decide, by decide, by decide, by decide, by decide, by decide, by decide, by decide⟩

/-- RegisterShiftsUseTheLowFiveBits, ImmediateShiftsUseTheirField, RightShiftsFillWithZeroOrTheSign: amounts 0 and 31 of
SR and SRA, of a register whose higher bits are set; SRI and SRAI by 31 need nothing of any register. -/
theorem witness_shift_amounts :
    (0 < 32 ∧ ((stateWith 0#32 0x20#32).readReg 2).toNat % 32 = 0) ∧
    (31 < 32 ∧ ((stateWith 0#32 0xFFFFFFFF#32).readReg 2).toNat % 32 = 31) := by decide

/-- ConditionalBranchesGoToTheirTargetIffTaken: a backward target. -/
theorem witness_branch_target :
    0x00000FF8#32 = (branchState true false false).pc + BitVec.ofInt 32 ((0xFFFE#16).toInt * 4) := by
  decide

/-- ReturnThroughTheLinkRegisterComesBack: a later state that has left the subroutine's entry and kept the link. -/
theorem witness_link_kept :
    ∃ t, exec (.jl 15 3 0) (stateWith 0#32 0#32) = .next t ∧
      ((t.setPc 0x40#32).writeReg 3 7#32).readReg 15 = t.readReg 15 := ⟨_, rfl, by decide⟩

/-- OnlyControlTransfersLeaveTheSequence: an instruction of each clause completes. -/
theorem witness_sequence :
    ((Instr.add 3 1 2).transfersControl = false ∧ Instr.add 3 1 2 ≠ .halt ∧
      ∃ t, exec (.add 3 1 2) addState = .next t) ∧
    (∀ i ∈ [Instr.beq 4, .bne 4, .bge 4, .blt 4, .j 4 0, .jr 1, .jl 15 4 0, .jlr 15 1 4, .halt],
      ∃ t, exec i addState = .next t) := by
  refine ⟨⟨rfl, by decide, _, rfl⟩, fun i hi => ?_⟩
  simp only [List.mem_cons, List.not_mem_nil, or_false] at hi
  rcases hi with rfl | rfl | rfl | rfl | rfl | rfl | rfl | rfl | rfl <;> exact ⟨_, rfl⟩

/-- OnlyRegisterJumpsCanMisalignThePc: the last word of the space, an aligned pc, a misaligned one. -/
theorem witness_pcs :
    (State.reset.setPc 0xFFFFFFFC#32).pc = 0xFFFFFFFC#32 ∧ addState.pc.toNat % 4 = 0 ∧
    (∃ t, exec (.beq 4) addState = .next t) ∧ (∀ ra, Instr.beq 4 ≠ .jr ra) ∧ (∀ rd ra imm, Instr.beq 4 ≠ .jlr rd ra imm) ∧
    (addState.setPc 0x12#32).halted = false ∧ (addState.setPc 0x12#32).pc.toNat % 4 ≠ 0 :=
  ⟨rfl, by decide, ⟨_, rfl⟩, by simp, by simp, rfl, by decide⟩

/-- HaltStopsTheProcessorForEver. -/
theorem witness_halted : haltState.halt.halted = true := rfl

/-- OnlyHaltHaltsTheMachine: a step that halts a running machine. -/
theorem witness_halting_step :
    haltState.halted = false ∧ ∃ t, step haltState = .next t ∧ t.halted = true := ⟨rfl, _, rfl, rfl⟩

/-- StepReportsTheFirstFaultInOrder: a state for each clause. -/
theorem witness_first_faults :
    ((addState.setPc 0x202#32).halted = false ∧ (addState.setPc 0x202#32).pc.toNat % 4 ≠ 0) ∧
    ((addState.setPc 0x200#32).halted = false ∧ (addState.setPc 0x200#32).pc.toNat % 4 = 0 ∧
      ∃ k, k < 4 ∧ mapped (addState.setPc 0x200#32).config ((addState.setPc 0x200#32).pc + BitVec.ofNat 32 k) = false) ∧
    (illegalState.halted = false ∧ fetch illegalState = .ok 0xFFFFFFFF#32 ∧
      ∀ i, decode illegalState.config 0xFFFFFFFF#32 ≠ .ok i) ∧
    ((loadState 0x202#32).halted = false ∧ fetch (loadState 0x202#32) = .ok 0x2C870000#32 ∧
      decode (loadState 0x202#32).config 0x2C870000#32 = .ok (.ldw 2 1 0 0) ∧
      (loadState 0x202#32).ea 1 0 0 = 0x202#32 ∧ (0x202#32).toNat % Width.word.bytes ≠ 0) ∧
    (fetch (loadState 0x200#32) = .ok 0x2C870000#32 ∧ (loadState 0x200#32).ea 1 0 0 = 0x200#32 ∧
      (0x200#32).toNat % Width.word.bytes = 0 ∧
      ∃ k, k < Width.word.bytes ∧ mapped (loadState 0x200#32).config (0x200#32 + BitVec.ofNat 32 k) = false) := by
  refine ⟨⟨rfl, by decide⟩, ⟨rfl, by decide, 0, by decide⟩, ⟨rfl, rfl, fun i h => ?_⟩, ⟨rfl, rfl, rfl, by decide, by decide⟩,
    ⟨rfl, by decide, by decide, 0, by decide⟩⟩
  have : decode illegalState.config 0xFFFFFFFF#32 = .error (.unassigned 0xFFFFFFFF#32) := rfl
  rw [this] at h
  cases h

/-- FaultIsPreciseAndFinal, FaultsAreRaisedOnlyAsListed: steps that fault in each of the four ways, and a run with a
fault recorded. -/
theorem witness_faulting_steps :
    step (addState.setPc 0x12#32) = .fault (.misalignedFetch 0x12#32) ∧
    step (addState.setPc 0x200#32) = .fault (.accessFault 0x200#32) ∧
    step illegalState = .fault (.illegalInstruction 0x10#32 0xFFFFFFFF#32) ∧
    step (loadState 0x102#32) = .fault (.misalignedAccess 0x102#32) ∧
    step (loadState 0x200#32) = .fault (.accessFault 0x200#32) ∧
    (Run.start illegalState).tick.status = .faulted (.illegalInstruction 0x10#32 0xFFFFFFFF#32) :=
  ⟨rfl, rfl, rfl, rfl, rfl, rfl⟩

/-- StepRunsTheDecodedInstruction: the four bytes at the pc, read as the decoder reads bytes; and a halted machine. -/
theorem witness_decoded_step :
    (addState.halted = false ∧ addState.pc.toNat % 4 = 0 ∧
      (∀ k, k < 4 → mapped addState.config (addState.pc + BitVec.ofNat 32 k) = true) ∧
      decodeBytes addState.config (addState.byteAt addState.pc :: addState.byteAt (addState.pc + 1#32) ::
        addState.byteAt (addState.pc + 2#32) :: addState.byteAt (addState.pc + 3#32) :: [0xAA#8]) =
          .ok (.add 3 1 2, [0xAA#8])) ∧
    haltState.halt.halted = true := ⟨⟨rfl, by decide, by decide, rfl⟩, rfl⟩

/-- LoadedWordIsWhatTheNextStepRuns. -/
theorem witness_loadable :
    (stateWith 0#32 0#32).config.wf = true ∧ (Instr.sli 3 1 31).wf = true ∧ (stateWith 0#32 0#32).halted = false ∧
    aligned (stateWith 0#32 0#32).pc .word = true ∧ mappedAccess smallConfig (stateWith 0#32 0#32).pc .word = true := by
  decide

/-- WhereResolvesToFieldsThatReachIt: targets that a branch reaches and does not, and that a J reaches and does not. -/
theorem witness_where :
    (branchFields 0x1000#32 0x00020FFC#32 = some 0x7FFF#16 ∧ (branchState true false false).flags.z = true) ∧
    branchFields 0x1000#32 0x00021000#32 = none ∧
    jumpFields 0x1000#32 0x00021000#32 = some (0x4000#16, 1) ∧ jumpFields 0x1000#32 0x1002#32 = none ∧
    0x1000#32 + jumpOffset 0x8000#16 0 = 0xFFFE1000#32 := by decide

end Sys2Proof.Tests
end

section
/-! SUPPORT. The state and its frame (10_state.md): what an instruction leaves unchanged, what the flags report, that
nothing but the four branches reads them, where the pc goes, and how HALT ends a run; then the proofs of the statements
of that chapter. -/

namespace Sys2Proof.Machine

/-! ## Instructions as equations of `exec`

The six that write the flags, the four that read them, the jumps through a register, NOP and HALT. -/

section ExecEquations

variable (rd ra rb : RegIdx) (imm : BitVec 16) (s : State)

@[simp] theorem exec_add : exec (.add rd ra rb) s = .next ((s.writeReg rd (s.readReg ra + s.readReg rb)).setFlags
    (signedAddFlags (s.readReg ra) (s.readReg rb))).advance := rfl

@[simp] theorem exec_addi : exec (.addi rd ra imm) s = .next ((s.writeReg rd (s.readReg ra + imm.signExtend 32)).setFlags
    (signedAddFlags (s.readReg ra) (imm.signExtend 32))).advance := rfl

@[simp] theorem exec_addu : exec (.addu rd ra rb) s = .next ((s.writeReg rd (s.readReg ra + s.readReg rb)).setFlags
    (unsignedAddFlags (s.readReg ra) (s.readReg rb))).advance := rfl

@[simp] theorem exec_sub : exec (.sub rd ra rb) s = .next ((s.writeReg rd (s.readReg ra - s.readReg rb)).setFlags
    (signedSubFlags (s.readReg ra) (s.readReg rb))).advance := rfl

@[simp] theorem exec_subi : exec (.subi rd ra imm) s = .next ((s.writeReg rd (s.readReg ra - imm.signExtend 32)).setFlags
    (signedSubFlags (s.readReg ra) (imm.signExtend 32))).advance := rfl

@[simp] theorem exec_subu : exec (.subu rd ra rb) s = .next ((s.writeReg rd (s.readReg ra - s.readReg rb)).setFlags
    (unsignedSubFlags (s.readReg ra) (s.readReg rb))).advance := rfl

@[simp] theorem exec_beq : exec (.beq imm) s =
    .next (s.setPc (if s.flags.z = true then s.pc + wordOffset imm else s.pc + 4#32)) := rfl

@[simp] theorem exec_bne : exec (.bne imm) s =
    .next (s.setPc (if s.flags.z = false then s.pc + wordOffset imm else s.pc + 4#32)) := by
  cases h : s.flags.z <;> simp [exec, execBne, endBranch, endJump, Flags.notEqual, State.nextPc_eq, h]

@[simp] theorem exec_bge : exec (.bge imm) s =
    .next (s.setPc (if s.flags.n = s.flags.v then s.pc + wordOffset imm else s.pc + 4#32)) := by
  simp [exec, execBge, endBranch, endJump, Flags.greaterOrEqual, State.nextPc_eq]

@[simp] theorem exec_blt : exec (.blt imm) s =
    .next (s.setPc (if s.flags.n ≠ s.flags.v then s.pc + wordOffset imm else s.pc + 4#32)) := by
  simp [exec, execBlt, endBranch, endJump, Flags.lessThan, State.nextPc_eq]

@[simp] theorem exec_jr : exec (.jr ra) s = .next (s.setPc (s.pc + s.readReg ra)) := rfl

@[simp] theorem exec_jlr : exec (.jlr rd ra imm) s =
    .next ((s.writeReg rd s.nextPc).setPc (s.readReg ra + wordOffset imm)) := rfl

@[simp] theorem exec_nop : exec .nop s = .next s.advance := rfl

@[simp] theorem exec_halt : exec .halt s = .next s.halt := rfl

end ExecEquations

/-! ## What a completed instruction leaves unchanged -/

section Frame

variable {i : Instr} {s t : State}

/-- An instruction that writes no flags keeps them (R19). -/
theorem exec_flags_of_not_writesFlags (hi : i.writesFlags = false) (h : exec i s = .next t) : t.flags = s.flags := by
  cases exec_effect h with
  | regFlags _ _ _ _ _ hf => simp [hi] at hf
  | reg | store | jump | link | nop | halt => simp

/-- An instruction that is no control transfer and not HALT ends at the next address (R16). -/
theorem exec_pc_of_sequential (hi : i.transfersControl = false) (hh : i ≠ .halt) (h : exec i s = .next t) :
    t.pc = s.pc + 4#32 := by
  cases exec_effect h with
  | jump _ _ _ _ _ hc | link _ _ _ _ _ _ hc => simp [hi] at hc
  | halt => exact absurd rfl hh
  | reg | regFlags | store | nop => simp [State.nextPc_eq]

/-- Only HALT changes the latch (R25). -/
theorem exec_halted (hh : i ≠ .halt) (h : exec i s = .next t) : t.halted = s.halted := by
  cases exec_effect h with
  | halt => exact absurd rfl hh
  | reg | regFlags | store | jump | link | nop => simp

theorem exec_config (h : exec i s = .next t) : t.config = s.config := by
  cases exec_effect h <;> simp

theorem exec_powerUp (h : exec i s = .next t) : t.powerUp = s.powerUp := by
  cases exec_effect h <;> simp

/-- No register but the destination changes (R13). -/
theorem exec_readReg (h : exec i s = .next t) {r : RegIdx} (hr : i.destination ≠ some r) :
    t.readReg r = s.readReg r := by
  cases exec_effect h with
  | reg _ _ _ hd | regFlags _ _ _ _ hd | link _ _ _ hd =>
    have hne : r ≠ _ := fun e => hr (e ▸ hd)
    simp [State.writeReg_readReg_of_ne, hne]
  | store | jump | nop | halt => simp

/-- Only a store changes memory (R38). -/
theorem exec_sameMemory (hs : i.stores = false) (h : exec i s = .next t) : SameMemory s t := by
  intro a
  cases exec_effect h with
  | store _ _ _ _ _ _ _ _ _ _ hs' => simp [hs] at hs'
  | reg | regFlags | jump | link | nop | halt => simp

/-- A load or store leaves every byte outside its access as it was (R38). -/
theorem exec_byteAt_of_outside {w : Width} {ra : RegIdx} {imm : BitVec 12} {shift : Nat} {b : Word}
    (ha : i.access = some (w, ra, imm, shift)) (h : exec i s = .next t)
    (hb : ∀ k, k < w.bytes → b ≠ s.ea ra imm shift + BitVec.ofNat 32 k) : t.byteAt b = s.byteAt b := by
  cases hs : i.stores with
  | false => exact exec_sameMemory hs h b
  | true =>
    cases exec_effect h with
    | store _ w' rv _ _ _ ha' =>
      cases ha.symm.trans ha'
      have hlen : (storedBytes (s.readReg rv) w).length ≤ 4294967296 := by
        have := w.bytes_le
        rw [storedBytes_length]
        omega
      simpa using State.putBytes_byteAt_of_outside s _ _ hlen (by simpa using hb)
    | reg _ _ _ _ _ hs' | regFlags _ _ _ _ _ _ hs' | jump _ _ _ _ hs' | link _ _ _ _ _ hs' => simp [hs] at hs'
    | nop | halt => cases hs

end Frame

/-! ## The flags are the exact results -/

section Flags

variable (a b : Word)

@[simp] theorem signedAddFlags_z : (signedAddFlags a b).z = true ↔ a + b = 0#32 := by
  simp [signedAddFlags]

@[simp] theorem signedSubFlags_z : (signedSubFlags a b).z = true ↔ a - b = 0#32 := by
  simp [signedSubFlags]

@[simp] theorem unsignedAddFlags_z : (unsignedAddFlags a b).z = true ↔ a + b = 0#32 := by
  simp [unsignedAddFlags]

@[simp] theorem unsignedSubFlags_z : (unsignedSubFlags a b).z = true ↔ a - b = 0#32 := by
  simp [unsignedSubFlags]

theorem signedAddFlags_n : (signedAddFlags a b).n = (a + b).msb := rfl

theorem signedSubFlags_n : (signedSubFlags a b).n = (a - b).msb := rfl

@[simp] theorem unsignedAddFlags_n : (unsignedAddFlags a b).n = false := rfl

@[simp] theorem unsignedSubFlags_n : (unsignedSubFlags a b).n = false := rfl

/-- R20's rule by sign bits for the overflow of an addition. -/
theorem signedAddFlags_v_iff_signs : (signedAddFlags a b).v = true ↔ a.msb = b.msb ∧ (a + b).msb ≠ a.msb := by
  simp [signedAddFlags]

/-- R20's rule by sign bits for the overflow of a subtraction. -/
theorem signedSubFlags_v_iff_signs : (signedSubFlags a b).v = true ↔ a.msb ≠ b.msb ∧ (a - b).msb ≠ a.msb := by
  simp [signedSubFlags]

/-- The overflow of an addition by sign bits is the one by the exact integer (R20). -/
theorem signedAddFlags_eq_exactAddFlags : signedAddFlags a b = exactAddFlags a b := by
  have hv : (signedAddFlags a b).v = (exactAddFlags a b).v :=
    calc (signedAddFlags a b).v
        = a.saddOverflow b := (BitVec.saddOverflow_eq a b).symm
      _ = (exactAddFlags a b).v := by
        simp only [BitVec.saddOverflow, exactAddFlags, ← Bool.decide_or, decide_eq_decide]
        omega
  exact congrArg (Flags.mk _ _) hv

/-- The overflow of a subtraction by sign bits is the one by the exact integer (R20). -/
theorem signedSubFlags_eq_exactSubFlags : signedSubFlags a b = exactSubFlags a b := by
  have hv : (signedSubFlags a b).v = (exactSubFlags a b).v :=
    calc (signedSubFlags a b).v
        = a.ssubOverflow b := by
          rw [BitVec.ssubOverflow_eq, signedSubFlags]
          cases a.msb <;> cases b.msb <;> cases (a - b).msb <;> rfl
      _ = (exactSubFlags a b).v := by
        simp only [BitVec.ssubOverflow, exactSubFlags, ← Bool.decide_or, decide_eq_decide]
        omega
  exact congrArg (Flags.mk _ _) hv

theorem signedAddFlags_v_iff_exact :
    (signedAddFlags a b).v = true ↔ a.toInt + b.toInt < -2147483648 ∨ 2147483647 < a.toInt + b.toInt := by
  rw [signedAddFlags_eq_exactAddFlags]
  exact decide_eq_true_iff

theorem signedSubFlags_v_iff_exact :
    (signedSubFlags a b).v = true ↔ a.toInt - b.toInt < -2147483648 ∨ 2147483647 < a.toInt - b.toInt := by
  rw [signedSubFlags_eq_exactSubFlags]
  exact decide_eq_true_iff

@[simp] theorem unsignedAddFlags_v : (unsignedAddFlags a b).v = true ↔ 4294967296 ≤ a.toNat + b.toNat := by
  simp [unsignedAddFlags]

@[simp] theorem unsignedSubFlags_v : (unsignedSubFlags a b).v = true ↔ a.toNat < b.toNat := by
  simp [unsignedSubFlags]

/-- The carry: the 32-bit sum is not the exact one (R21). -/
theorem unsignedAddFlags_v_iff_inexact :
    (unsignedAddFlags a b).v = true ↔ (a + b).toNat ≠ a.toNat + b.toNat := by
  rw [unsignedAddFlags_v, BitVec.toNat_add]
  omega

/-- The borrow: the 32-bit difference is not the exact one (R21). -/
theorem unsignedSubFlags_v_iff_inexact :
    (unsignedSubFlags a b).v = true ↔ ((a - b).toNat : Int) ≠ (a.toNat : Int) - b.toNat := by
  rw [unsignedSubFlags_v, BitVec.toNat_sub]
  omega

/-- After an addition BLT compares the exact sum with 0: the overflow corrects the sign of the 32-bit sum (R22). -/
theorem signedAddFlags_n_ne_v :
    (signedAddFlags a b).n ≠ (signedAddFlags a b).v ↔ a.toInt + b.toInt < 0 := by
  have ha := And.intro a.le_toInt a.toInt_lt
  have hb := And.intro b.le_toInt b.toInt_lt
  rw [ne_eq, Bool.eq_iff_iff, signedAddFlags_v_iff_exact, signedAddFlags_n, BitVec.msb_eq_toInt, decide_eq_true_iff,
    BitVec.toInt_add, Int.bmod_def]
  omega

/-- After a subtraction BLT compares the operands, overflow or not (R22). -/
theorem signedSubFlags_n_ne_v :
    (signedSubFlags a b).n ≠ (signedSubFlags a b).v ↔ a.toInt < b.toInt := by
  have ha := And.intro a.le_toInt a.toInt_lt
  have hb := And.intro b.le_toInt b.toInt_lt
  rw [ne_eq, Bool.eq_iff_iff, signedSubFlags_v_iff_exact, signedSubFlags_n, BitVec.msb_eq_toInt, decide_eq_true_iff,
    BitVec.toInt_sub, Int.bmod_def]
  omega

theorem unsignedAddFlags_n_ne_v :
    (unsignedAddFlags a b).n ≠ (unsignedAddFlags a b).v ↔ 4294967296 ≤ a.toNat + b.toNat := by
  rw [← unsignedAddFlags_v]
  simp only [unsignedAddFlags_n, ne_eq, Bool.false_eq, Bool.not_eq_false]

theorem unsignedSubFlags_n_ne_v :
    (unsignedSubFlags a b).n ≠ (unsignedSubFlags a b).v ↔ a.toNat < b.toNat := by
  rw [← unsignedSubFlags_v]
  simp only [unsignedSubFlags_n, ne_eq, Bool.false_eq, Bool.not_eq_false]

end Flags

section FlagWriters

variable {s : State} {rd ra rb : RegIdx} {imm : BitVec 16} {i : Instr} {b : Word}

/-- ADD and ADDI are one addition, of a register or of the immediate. -/
theorem exec_add_or_addi (hi : (i = .add rd ra rb ∧ b = s.readReg rb) ∨ (i = .addi rd ra imm ∧ b = imm.signExtend 32)) :
    exec i s = .next ((s.writeReg rd (s.readReg ra + b)).setFlags (signedAddFlags (s.readReg ra) b)).advance := by
  rcases hi with ⟨rfl, rfl⟩ | ⟨rfl, rfl⟩
  · exact exec_add ..
  · exact exec_addi ..

/-- SUB and SUBI are one subtraction, of a register or of the immediate. -/
theorem exec_sub_or_subi (hi : (i = .sub rd ra rb ∧ b = s.readReg rb) ∨ (i = .subi rd ra imm ∧ b = imm.signExtend 32)) :
    exec i s = .next ((s.writeReg rd (s.readReg ra - b)).setFlags (signedSubFlags (s.readReg ra) b)).advance := by
  rcases hi with ⟨rfl, rfl⟩ | ⟨rfl, rfl⟩
  · exact exec_sub ..
  · exact exec_subi ..

end FlagWriters

/-! ## Nothing but the two predicates of the flags is observable

A run from other flags that agree is followed step by step: an instruction that writes the flags forgets those before,
a branch cannot tell them apart, and every other instruction carries them through. -/

namespace FlagsAgree

variable {f g : Flags} (h : FlagsAgree f g)
include h

theorem equal : f.equal = g.equal := h.1

theorem notEqual : f.notEqual = g.notEqual := congrArg (!·) h.1

theorem lessThan : f.lessThan = g.lessThan := h.2

theorem greaterOrEqual : f.greaterOrEqual = g.greaterOrEqual := by
  simpa [Flags.greaterOrEqual, bne] using h.2

end FlagsAgree

/-- The outcome with other flags in its next state, if there is one. -/
def withFlags (f : Flags) : Result → Result
  | .next t => .next (t.setFlags f)
  | .fault e => .fault e
  | .refused r => .refused r

section Noninterference

variable (s : State) (f : Flags)

theorem endLoad_setFlags (rv : RegIdx) (r : Except Fault Word) :
    endLoad (s.setFlags f) rv r = withFlags f (endLoad s rv r) := by
  cases r <;> rfl

theorem endStore_memWrite_setFlags (a : Word) (w : Width) (v : Word) :
    endStore (memWrite (s.setFlags f) a w v) = withFlags f (endStore (memWrite s a w v)) := by
  have hc : checkAccess (s.setFlags f) a w = checkAccess s a w := checkAccess_congr rfl a w
  rcases checkAccess_cases s a w with hk | ⟨e, hk⟩
  · rw [memWrite_of_ok hk, memWrite_of_ok (hc.trans hk), State.putBytes_setFlags]
    rfl
  · rw [memWrite_of_error hk, memWrite_of_error (hc.trans hk)]
    rfl

/-- A branch looks at nothing of the flags but its condition. -/
theorem endBranch_setFlags {taken taken' : Bool} (h : taken = taken') (target : Word) :
    endBranch (s.setFlags f) taken' target = withFlags f (endBranch s taken target) := by
  subst h
  rfl

/-- An instruction that writes the flags does not depend on those before. -/
theorem exec_setFlags_of_writesFlags {i : Instr} (hi : i.writesFlags = true) : exec i (s.setFlags f) = exec i s := by
  cases i with
  | add | addu | addi | sub | subu | subi => rfl
  | _ => cases hi

/-- An instruction that neither reads nor writes the flags carries them through. -/
theorem exec_setFlags_of_not_readsFlags {i : Instr} (hr : i.readsFlags = false) (hw : i.writesFlags = false) :
    exec i (s.setFlags f) = withFlags f (exec i s) := by
  cases i with
  | ldbu | ldb | ldhwu | ldhw | ldw => exact endLoad_setFlags s f _ _
  | stb | sthw | stw => exact endStore_memWrite_setFlags s f _ _ _
  | beq | bne | bge | blt => cases hr
  | add | addu | addi | sub | subu | subi => cases hw
  | _ => rfl

variable {s f}

/-- A branch cannot tell flags apart that agree. -/
theorem exec_setFlags_of_readsFlags {i : Instr} (h : FlagsAgree s.flags f) (hr : i.readsFlags = true) :
    exec i (s.setFlags f) = withFlags f (exec i s) := by
  cases i with
  | beq => exact endBranch_setFlags s f h.equal _
  | bne => exact endBranch_setFlags s f h.notEqual _
  | bge => exact endBranch_setFlags s f h.greaterOrEqual _
  | blt => exact endBranch_setFlags s f h.lessThan _
  | _ => cases hr

/-- Two outcomes are alike: next states that differ only in flags that agree, or one fault or refusal. -/
inductive OutcomesAgree : Result → Result → Prop where
  | next (t : State) (g : Flags) (h : FlagsAgree t.flags g) : OutcomesAgree (.next t) (.next (t.setFlags g))
  | fault (e : Fault) : OutcomesAgree (.fault e) (.fault e)
  | refused (r : Refusal) : OutcomesAgree (.refused r) (.refused r)

theorem OutcomesAgree.refl (r : Result) : OutcomesAgree r r := by
  cases r with
  | next t => exact .next t t.flags ⟨rfl, rfl⟩
  | fault e => exact .fault e
  | refused x => exact .refused x

/-- From flags that agree an instruction has outcomes that are alike (R23). -/
theorem exec_agree (h : FlagsAgree s.flags f) (i : Instr) : OutcomesAgree (exec i s) (exec i (s.setFlags f)) := by
  cases hw : i.writesFlags with
  | true =>
    rw [exec_setFlags_of_writesFlags s f hw]
    exact .refl _
  | false =>
    have he : exec i (s.setFlags f) = withFlags f (exec i s) := by
      cases hr : i.readsFlags with
      | true => exact exec_setFlags_of_readsFlags h hr
      | false => exact exec_setFlags_of_not_readsFlags s f hr hw
    rw [he]
    cases ht : exec i s with
    | next t => exact .next t f (exec_flags_of_not_writesFlags hw ht ▸ h)
    | fault e => exact .fault e
    | refused r => exact .refused r

/-- From flags that agree a step has outcomes that are alike: neither fetch nor decode reads them. -/
theorem step_agree (h : FlagsAgree s.flags f) : OutcomesAgree (step s) (step (s.setFlags f)) := by
  cases hh : s.halted with
  | true =>
    rw [step_halted hh, step_halted (s := s.setFlags f) hh]
    exact .next s f h
  | false =>
    have hf' : fetch (s.setFlags f) = fetch s := rfl
    cases hf : fetch s with
    | error e =>
      rw [step_fetch_error hh hf, step_fetch_error (s := s.setFlags f) hh (hf'.trans hf)]
      exact .fault e
    | ok w =>
      cases hd : decode s.config w with
      | error e =>
        rw [step_decode_error hh hf hd, step_decode_error (s := s.setFlags f) hh (hf'.trans hf) hd]
        exact .fault _
      | ok i =>
        rw [step_decoded hh hf hd, step_decoded (s := s.setFlags f) hh (hf'.trans hf) hd]
        exact exec_agree h i

end Noninterference

/-- Two runs stand alike, in states that differ only in flags that agree. -/
def RunsAgree (r q : Run) : Prop := ∃ g, FlagsAgree r.state.flags g ∧ q = ⟨r.state.setFlags g, r.status⟩

theorem RunsAgree.tick {r q : Run} (h : RunsAgree r q) : RunsAgree r.tick q.tick := by
  obtain ⟨f, hf, rfl⟩ := h
  by_cases hr : r.status = .running
  · have hs := step_agree hf
    simp only [Run.tick, hr]
    generalize step r.state = x, step (r.state.setFlags f) = y at hs
    cases hs with
    | next t g h => exact ⟨g, h, rfl⟩
    | fault e => exact ⟨f, hf, rfl⟩
    | refused x => exact ⟨f, hf, rfl⟩
  · rw [Run.tick_of_ne_running hr, Run.tick_of_ne_running (r := ⟨r.state.setFlags f, r.status⟩) hr]
    exact ⟨f, hf, rfl⟩

theorem RunsAgree.ticks {r q : Run} (h : RunsAgree r q) (n : Nat) : RunsAgree (r.ticks n) (q.ticks n) := by
  induction n generalizing r q with
  | zero => exact h
  | succ n ih => exact ih h.tick

/-! ## The branches as comparisons -/

section Branches

variable {s : State} {p : Prop} [Decidable p] (imm : BitVec 16)

theorem completes_beq (h : s.flags.z = true ↔ p) :
    Completes (.beq imm) s fun t => t.pc = if p then s.pc + wordOffset imm else s.pc + 4#32 :=
  ⟨_, exec_beq .., if_congr h rfl rfl⟩

theorem completes_bne (h : s.flags.z = false ↔ p) :
    Completes (.bne imm) s fun t => t.pc = if p then s.pc + wordOffset imm else s.pc + 4#32 :=
  ⟨_, exec_bne .., if_congr h rfl rfl⟩

theorem completes_bge (h : s.flags.n = s.flags.v ↔ p) :
    Completes (.bge imm) s fun t => t.pc = if p then s.pc + wordOffset imm else s.pc + 4#32 :=
  ⟨_, exec_bge .., if_congr h rfl rfl⟩

theorem completes_blt (h : s.flags.n ≠ s.flags.v ↔ p) :
    Completes (.blt imm) s fun t => t.pc = if p then s.pc + wordOffset imm else s.pc + 4#32 :=
  ⟨_, exec_blt .., if_congr h rfl rfl⟩

end Branches

theorem signedSubFlags_n_eq_v (a b : Word) :
    (signedSubFlags a b).n = (signedSubFlags a b).v ↔ b.toInt ≤ a.toInt := by
  rw [← Int.not_lt, ← signedSubFlags_n_ne_v, ne_eq, not_not]

theorem unsignedSubFlags_n_eq_v (a b : Word) :
    (unsignedSubFlags a b).n = (unsignedSubFlags a b).v ↔ b.toNat ≤ a.toNat := by
  rw [← Nat.not_lt, ← unsignedSubFlags_n_ne_v, ne_eq, not_not]

/-! ## The pc -/

/-- A branch goes to its target if its condition holds, else on to the next instruction (R16). -/
theorem exec_branch_pc {i : Instr} {s t : State} {imm : BitVec 16} {taken : Bool}
    (hi : (i = .beq imm ∧ taken = s.flags.z) ∨ (i = .bne imm ∧ taken = !s.flags.z) ∨
      (i = .bge imm ∧ taken = (s.flags.n == s.flags.v)) ∨ (i = .blt imm ∧ taken = (s.flags.n != s.flags.v)))
    (h : exec i s = .next t) : t.pc = if taken then s.pc + wordOffset imm else s.pc + 4#32 := by
  rcases hi with ⟨rfl, rfl⟩ | ⟨rfl, rfl⟩ | ⟨rfl, rfl⟩ | ⟨rfl, rfl⟩ <;> cases h <;> rfl

section Alignment

theorem add_toNat_mod_four (a b : Word) : (a + b).toNat % 4 = (a.toNat + b.toNat) % 4 := by
  rw [BitVec.toNat_add]
  omega

theorem shiftLeft_two_toNat_mod_four (a : Word) : (a <<< 2).toNat % 4 = 0 := by
  rw [BitVec.toNat_shiftLeft, Nat.shiftLeft_eq]
  omega

@[simp] theorem wordOffset_toNat_mod_four (imm : BitVec 16) : (wordOffset imm).toNat % 4 = 0 :=
  shiftLeft_two_toNat_mod_four _

@[simp] theorem jumpOffset_toNat_mod_four (imm : BitVec 16) (shift : Nat) : (jumpOffset imm shift).toNat % 4 = 0 :=
  shiftLeft_two_toNat_mod_four _

/-- Adding a multiple of 4 keeps the alignment of an address. -/
theorem add_toNat_mod_four_of_right {a b : Word} (hb : b.toNat % 4 = 0) : (a + b).toNat % 4 = a.toNat % 4 := by
  rw [add_toNat_mod_four]
  omega

/-- An aligned pc stays aligned but for JR and JLR (R17). -/
theorem exec_pc_aligned {i : Instr} {s t : State} (hp : s.pc.toNat % 4 = 0) (hjr : ∀ ra, i ≠ .jr ra)
    (hjlr : ∀ rd ra imm, i ≠ .jlr rd ra imm) (h : exec i s = .next t) : t.pc.toNat % 4 = 0 := by
  have plus {b : Word} (hb : b.toNat % 4 = 0) : (s.pc + b).toNat % 4 = 0 :=
    (add_toNat_mod_four_of_right hb).trans hp
  cases hc : i.transfersControl with
  | false =>
    by_cases hh : i = .halt
    · subst hh
      cases h
      exact hp
    · rw [exec_pc_of_sequential hc hh h]
      exact plus rfl
  | true =>
    have branch {imm : BitVec 16} {p : Prop} [Decidable p] :
        (if p then s.pc + wordOffset imm else s.pc + 4#32).toNat % 4 = 0 := by
      split
      · exact plus (wordOffset_toNat_mod_four imm)
      · exact plus rfl
    cases i with
    | beq | bne | bge | blt => cases h; exact branch
    | j imm shift | jl _ imm shift => cases h; exact plus (jumpOffset_toNat_mod_four imm shift)
    | jr ra => exact absurd rfl (hjr ra)
    | jlr rd ra imm => exact absurd rfl (hjlr rd ra imm)
    | _ => cases hc

end Alignment

/-! ## Decoding, and HALT's word -/

/-- Bytes that the decoder reads as an instruction are the bytes of its word (R50). -/
theorem decode_of_decodeBytes {c : Config} {b0 b1 b2 b3 : Byte} {rest rest' : List Byte} {i : Instr}
    (h : decodeBytes c (b0 :: b1 :: b2 :: b3 :: rest) = .ok (i, rest')) :
    decode c (wordOfBytes b0 b1 b2 b3) = .ok i := by
  cases hd : decode c (wordOfBytes b0 b1 b2 b3) with
  | error e => simp [decodeBytes, hd] at h
  | ok j =>
    obtain ⟨rfl, -⟩ : j = i ∧ rest = rest' := by simpa [decodeBytes, hd] using h
    rfl

/-- No row of the opcode map builds HALT (R64). -/
theorem opcodeTable_build_ne_halt (w : Word) : ∀ r ∈ opcodeTable, r.build w ≠ .halt := by
  simp [opcodeTable, moveRows, loadRows, storeRows, arithmeticRows, logicRows, shiftRows, jumpRows, branchRows]

/-- `ENC_HALT`, and no other word, is HALT (R66, R166). -/
theorem decode_eq_halt_iff {c : Config} (hc : c.wf = true) (w : Word) : decode c w = .ok .halt ↔ w = c.encHalt := by
  constructor
  · intro h
    obtain ⟨r, hr, hw, hb⟩ := row_of_decode h
    simp only [Config.rows, List.mem_append, List.mem_cons, List.not_mem_nil, or_false] at hr
    rcases hr with hr | rfl | rfl
    · exact absurd hb.symm (opcodeTable_build_ne_halt w r hr)
    · cases hb
    · simpa [fits_whole_word] using hw
  · rintro rfl
    obtain ⟨r, hr, hw, hb⟩ := Laws.MatchesRow.halt rfl c
    exact (decode_of_row hc hr hw).trans (congrArg _ hb)

/-! ## The obligations -/

/-- Settles O22: runs that agree still agree after a step, so after any number of them. -/
theorem flagsAreObservableOnlyThroughTwoPredicates : Obligations.FlagsAreObservableOnlyThroughTwoPredicates :=
  fun n s f h => RunsAgree.ticks (r := .start s) (q := .start (s.setFlags f)) ⟨f, h, rfl⟩ n

/-- Settles O18: the overflow by sign bits is the overflow of the exact integer. -/
theorem signedArithmeticFlagsReportTheExactResult : Obligations.SignedArithmeticFlagsReportTheExactResult := by
  constructor
  · rintro s rd ra rb imm i a b r rfl hi rfl
    exact ⟨_, exec_add_or_addi hi, signedAddFlags_z _ _, signedAddFlags_n _ _, signedAddFlags_v_iff_signs _ _,
      signedAddFlags_v_iff_exact _ _⟩
  · rintro s rd ra rb imm i a b r rfl hi rfl
    exact ⟨_, exec_sub_or_subi hi, signedSubFlags_z _ _, signedSubFlags_n _ _, signedSubFlags_v_iff_signs _ _,
      signedSubFlags_v_iff_exact _ _⟩

/-- Settles O19: the carry and the borrow are where the exact result does not fit. -/
theorem unsignedArithmeticFlagsReportCarryAndBorrow : Obligations.UnsignedArithmeticFlagsReportCarryAndBorrow := by
  rintro s rd ra rb a b rfl rfl
  exact ⟨⟨_, exec_addu .., unsignedAddFlags_z _ _, rfl, unsignedAddFlags_v _ _, unsignedAddFlags_v_iff_inexact _ _⟩,
    ⟨_, exec_subu .., unsignedSubFlags_z _ _, rfl, unsignedSubFlags_v _ _, unsignedSubFlags_v_iff_inexact _ _⟩⟩

/-- Settles O20: the flags stay by the shapes of a next state, and the six compute theirs from registers alone. -/
theorem onlySixInstructionsWriteTheFlags : Obligations.OnlySixInstructionsWriteTheFlags := by
  refine ⟨fun i s t => exec_flags_of_not_writesFlags, fun i s f hw => ?_⟩
  obtain ⟨t, ht⟩ : ∃ t, exec i s = .next t := by
    cases i with
    | add | addu | addi | sub | subu | subi => exact ⟨_, rfl⟩
    | _ => cases hw
  exact ⟨t, t, ht, (exec_setFlags_of_writesFlags s f hw).trans ht, rfl⟩

/-- Settles O21: each condition of a branch, on the flags of the instruction before it, is a comparison of operands. -/
theorem branchesReadTheFlagsAsComparisons : Obligations.BranchesReadTheFlagsAsComparisons := by
  refine ⟨fun s imm => ⟨completes_beq imm .rfl, completes_bne imm .rfl, completes_bge imm .rfl, completes_blt imm .rfl⟩,
    fun i s f hr => ?_, ?_, ?_, ?_, ?_⟩
  · cases hw : i.writesFlags with
    | true => simp [exec_setFlags_of_writesFlags s f hw]
    | false =>
      rw [exec_setFlags_of_not_readsFlags s f hr hw]
      exact ⟨fun t ht => by rw [ht]; rfl, fun e he => by rw [he]; rfl⟩
  · rintro s rd ra rb imm i a b rfl hi
    exact ⟨_, exec_sub_or_subi hi, fun off => ⟨completes_beq off ((signedSubFlags_z _ _).trans sub_eq_zero),
      completes_blt off (signedSubFlags_n_ne_v _ _), completes_bge off (signedSubFlags_n_eq_v _ _)⟩⟩
  · rintro s rd ra rb a b rfl rfl
    exact ⟨_, exec_subu .., fun off => ⟨completes_beq off ((unsignedSubFlags_z _ _).trans sub_eq_zero),
      completes_blt off (unsignedSubFlags_n_ne_v _ _), completes_bge off (unsignedSubFlags_n_eq_v _ _)⟩⟩
  · rintro s rd ra rb imm i a b rfl hi
    exact ⟨_, exec_add_or_addi hi, fun off => ⟨completes_beq off (signedAddFlags_z _ _),
      completes_blt off (signedAddFlags_n_ne_v _ _)⟩⟩
  · rintro s rd ra rb a b rfl rfl
    exact ⟨_, exec_addu .., fun off => ⟨completes_beq off (unsignedAddFlags_z _ _),
      completes_blt off (unsignedAddFlags_n_ne_v _ _)⟩⟩

/-- Settles O41: by the shapes of a next state, and for control transfers by their targets. -/
theorem onlyControlTransfersLeaveTheSequence : Obligations.OnlyControlTransfersLeaveTheSequence := by
  refine ⟨fun i s t => exec_pc_of_sequential, fun i s t imm taken => exec_branch_pc, fun s t rd ra imm shift => ?_⟩
  refine ⟨?_, ?_, ?_, ?_, ?_⟩ <;> (intro h; cases h; rfl)

/-- Settles O42: every target but those of JR and JLR is an aligned pc plus a multiple of 4. -/
theorem onlyRegisterJumpsCanMisalignThePc : Obligations.OnlyRegisterJumpsCanMisalignThePc := by
  refine ⟨fun s hs => ⟨_, exec_nop s, by simp [State.nextPc_eq, hs]⟩, fun i s t => exec_pc_aligned,
    fun s rd ra imm hp => ⟨⟨_, exec_jr .., ?_⟩, ⟨_, exec_jlr .., ?_⟩⟩, fun s hs hp => ?_⟩
  · show (s.pc + s.readReg ra).toNat % 4 = 0 ↔ _
    rw [BitVec.add_comm, add_toNat_mod_four_of_right hp]
  · show (s.readReg ra + wordOffset imm).toNat % 4 = 0 ↔ _
    rw [add_toNat_mod_four_of_right (wordOffset_toNat_mod_four imm)]
  · have ha : aligned s.pc .word = false := Bool.eq_false_iff.2 fun ha => hp ((aligned_iff ..).1 ha)
    exact step_fetch_error hs (fetch_misaligned ha)

/-- Settles O44: a run whose status is halted takes no further step. -/
theorem haltStopsTheProcessorForEver : Obligations.HaltStopsTheProcessorForEver := by
  refine ⟨fun c w hc => decode_eq_halt_iff hc w, rfl, fun s => ?_, fun s n hs => ⟨step_halted hs, ?_⟩⟩
  · exact ⟨_, exec_halt s, rfl, fun _ => rfl, rfl, rfl, rfl, rfl, rfl⟩
  · have hst : Run.start s = ⟨s, .halted⟩ := by simp [Run.start, State.status, hs]
    rw [hst]
    exact Run.ticks_of_ne_running Status.noConfusion n

/-- Settles O45: the step ran a decoded instruction, and every instruction but HALT keeps the latch. -/
theorem onlyHaltHaltsTheMachine : Obligations.OnlyHaltHaltsTheMachine := by
  intro s t h hs ht
  rcases step_next h with ⟨hs', -⟩ | ⟨-, w, i, hf, hd, he⟩
  · simp [hs] at hs'
  · by_cases hi : i = .halt
    · subst hi
      rw [exec_halt] at he
      cases he
      exact ⟨⟨w, hf, hd⟩, rfl⟩
    · simp [exec_halted hi he, hs] at ht

/-- Settles O52: the frame of the shapes a next state can have. -/
theorem onlyTheDestinationAndStoredBytesChange : Obligations.OnlyTheDestinationAndStoredBytesChange := by
  intro i s t h
  exact ⟨fun _ hr => exec_readReg h hr, fun hs => exec_sameMemory hs h,
    fun _ _ _ _ ha _ hea _ hb => exec_byteAt_of_outside ha h (hea ▸ hb),
    fun hh => exec_halted hh h, exec_config h, exec_powerUp h⟩

/-- Settles O50: the fetch of an aligned pc inside `MEM_MAP` succeeds, and its word is the one the decoder reads. -/
theorem stepRunsTheDecodedInstruction : Obligations.StepRunsTheDecodedInstruction := by
  refine ⟨fun s i rest hs hp hm hd => ?_, fun s => step_halted⟩
  have hf := fetch_mapped ((aligned_iff s.pc .word).2 hp) ((mappedAccess_iff s.config s.pc .word).2 hm)
  exact step_decoded hs hf (decode_of_decodeBytes hd)

end Sys2Proof.Machine
end

section
/-! SUPPORT. Memory (20_memory.md): the checks of an access by numbers, the bytes of a word, what a read gives where
known bytes stand, loads and stores as instructions over them, and the invariant; then the proofs of the statements of
that chapter. -/

namespace Sys2Proof.Machine

/-! ## The checks of an access -/

theorem mappedAccess_eq_false_iff (c : Config) (a : Word) (w : Width) :
    mappedAccess c a w = false ↔ ∃ k, k < w.bytes ∧ mapped c (a + BitVec.ofNat 32 k) = false := by
  simp [← Bool.not_eq_true, mappedAccess_iff]

section Checks

variable {s : State} {a : Word} {w : Width}

/-- Alignment is checked first (R36). -/
theorem checkAccess_misaligned (h : a.toNat % w.bytes ≠ 0) : checkAccess s a w = .error (.misalignedAccess a) :=
  (checkAccess_error_iff ..).2 (.inl ⟨Bool.eq_false_iff.2 fun ha => h ((aligned_iff ..).1 ha), rfl⟩)

/-- An aligned access outside `MEM_MAP` (R40). -/
theorem checkAccess_unmapped (h : a.toNat % w.bytes = 0) (hm : mappedAccess s.config a w = false) :
    checkAccess s a w = .error (.accessFault a) :=
  (checkAccess_error_iff ..).2 (.inr ⟨(aligned_iff ..).2 h, hm, rfl⟩)

/-- An aligned access inside `MEM_MAP`. -/
theorem checkAccess_mapped (h : a.toNat % w.bytes = 0) (hm : mappedAccess s.config a w = true) :
    checkAccess s a w = .ok () :=
  (checkAccess_ok_iff ..).2 ⟨(aligned_iff ..).2 h, hm⟩

/-- An access passes the check wherever one that is a multiple as wide does. -/
theorem checkAccess_of_wider {w' : Width} (h : checkAccess s a w = .ok ()) (hd : w'.bytes ∣ w.bytes) :
    checkAccess s a w' = .ok () := by
  obtain ⟨ha, hm⟩ := (checkAccess_ok_iff ..).1 h
  have hle : w'.bytes ≤ w.bytes := Nat.le_of_dvd (by cases w <;> decide) hd
  refine checkAccess_mapped ?_ ((mappedAccess_iff ..).2 fun k hk => (mappedAccess_iff ..).1 hm k (hk.trans_le hle))
  exact Nat.mod_eq_zero_of_dvd (hd.trans (Nat.dvd_of_mod_eq_zero ((aligned_iff ..).1 ha)))

end Checks

/-! ## The bytes of a word -/

/-- The bytes of a word made of four bytes are those four (R32). -/
@[simp] theorem bytesOfWord_wordOfBytes (b0 b1 b2 b3 : Byte) :
    bytesOfWord (wordOfBytes b0 b1 b2 b3) = [b0, b1, b2, b3] := by
  simp only [bytesOfWord, wordOfBytes]
  simp (disch := omega) only [BitVec.extractLsb'_append_eq_of_le, BitVec.extractLsb'_append_eq_of_add_le]
  simp

/-- A word as a number: its first byte is the most significant (R33). -/
theorem wordOfBytes_toNat (b0 b1 b2 b3 : Byte) : (wordOfBytes b0 b1 b2 b3).toNat =
    b0.toNat * 2 ^ 24 + b1.toNat * 2 ^ 16 + b2.toNat * 2 ^ 8 + b3.toNat := by
  simp only [wordOfBytes, append_toNat]
  omega

/-- The `k`-th byte that a store of a width writes, as a digit of the value (R34). -/
theorem storedBytes_getElem_toNat (v : Word) (w : Width) {k : Nat} (hk : k < (storedBytes v w).length) :
    ((storedBytes v w)[k]).toNat = v.toNat / 2 ^ (8 * (w.bytes - 1 - k)) % 256 := by
  have hk' : k < w.bytes := by simpa using hk
  cases w <;> simp only [Width.bytes] at hk' <;> interval_cases k <;>
    simp [storedBytes, bytesOfWord, Width.bytes, Nat.shiftRight_eq_div_pow]

theorem storedBytes_length_le (v : Word) (w : Width) : (storedBytes v w).length ≤ 4294967296 := by
  have := w.bytes_le
  rw [storedBytes_length]
  omega

/-! ## Reading where known bytes stand -/

/-- The bytes `bs` stand at `a` and upward. -/
def State.Holds (s : State) (a : Word) (bs : List Byte) : Prop :=
  ∀ k (h : k < bs.length), s.byteAt (a + BitVec.ofNat 32 k) = bs[k]

theorem State.putBytes_holds (s : State) (a : Word) (v : Word) (w : Width) :
    (s.putBytes a (storedBytes v w)).Holds a (storedBytes v w) :=
  fun _ hk => State.putBytes_byteAt_add s a _ (storedBytes_length_le v w) hk

@[simp] theorem State.advance_holds (s : State) (a : Word) (bs : List Byte) : s.advance.Holds a bs ↔ s.Holds a bs :=
  .rfl

section Holds

variable {s : State} {a v : Word}

theorem State.Holds.byteAt_zero {b : Byte} {bs : List Byte} (h : s.Holds a (b :: bs)) : s.byteAt a = b :=
  (congrArg s.byteAt (BitVec.add_zero a)).symm.trans (h 0 (by simp))

/-- Bytes that stand there still do in a state that reads the same at their addresses. -/
theorem State.Holds.of_byteAt_eq {t : State} {bs : List Byte} (h : s.Holds a bs)
    (ht : ∀ k, k < bs.length → t.byteAt (a + BitVec.ofNat 32 k) = s.byteAt (a + BitVec.ofNat 32 k)) : t.Holds a bs :=
  fun k hk => (ht k hk).trans (h k hk)

theorem memRead8_of_holds {b : Byte} {bs : List Byte} (h : s.Holds a (b :: bs))
    (hok : checkAccess s a .byte = .ok ()) : memRead8 s a = .ok b := by
  rw [memRead8_of_ok hok, h.byteAt_zero]

theorem memRead16_of_holds {b0 b1 : Byte} {bs : List Byte} (h : s.Holds a (b0 :: b1 :: bs))
    (hok : checkAccess s a .half = .ok ()) : memRead16 s a = .ok (b0 ++ b1) := by
  rw [memRead16_of_ok hok, h.byteAt_zero, h 1 (by simp)]
  rfl

theorem memRead32_of_holds (h : s.Holds a (bytesOfWord v)) (hok : checkAccess s a .word = .ok ()) :
    memRead32 s a = .ok v := by
  have h1 := h 1 (by simp [bytesOfWord])
  have h2 := h 2 (by simp [bytesOfWord])
  have h3 := h 3 (by simp [bytesOfWord])
  rw [memRead32_of_ok hok, h.byteAt_zero, h1, h2, h3]
  exact congrArg _ (wordOfBytes_bytes v)

end Holds

/-! ## Fetch -/

/-- A fetch that succeeds is a 4-byte read at the pc (R35). -/
theorem memRead32_of_fetch {s : State} {w : Word} (h : fetch s = .ok w) : memRead32 s s.pc = .ok w := by
  obtain ⟨ha, -, -⟩ := fetch_ok h
  simpa [fetch, ha] using h

/-- A 4-byte read at an aligned pc is the fetch. -/
theorem fetch_of_memRead32 {s : State} {w : Word} (ha : aligned s.pc .word = true) (h : memRead32 s s.pc = .ok w) :
    fetch s = .ok w := by
  simpa [fetch, ha] using h

/-- The bytes of a fetched word are those at the pc and the three addresses after it (R35). -/
theorem bytesOfWord_of_fetch {s : State} {w : Word} (h : fetch s = .ok w) :
    bytesOfWord w = [s.byteAt s.pc, s.byteAt (s.pc + 1#32), s.byteAt (s.pc + 2#32), s.byteAt (s.pc + 3#32)] := by
  obtain ⟨-, -, rfl⟩ := fetch_ok h
  exact bytesOfWord_wordOfBytes ..

/-- The `k`-th byte of a fetched word, as a digit of its number. -/
theorem fetch_digit {s : State} {w : Word} (h : fetch s = .ok w) {k : Nat} (hk : k < 4) :
    w.toNat / 2 ^ (8 * (3 - k)) % 256 = (s.byteAt (s.pc + BitVec.ofNat 32 k)).toNat := by
  have hdigit := storedBytes_getElem_toNat w .word hk
  simp only [storedBytes, bytesOfWord_of_fetch h] at hdigit
  refine hdigit.symm.trans ?_
  interval_cases k <;> simp

/-! ## Stores and loads as instructions -/

section LoadStore

variable (s : State) (rv ra : RegIdx) (imm : BitVec 12) (shift : Nat)

@[simp] theorem State.advance_ea : s.advance.ea ra imm shift = s.ea ra imm shift := rfl

@[simp] theorem State.putBytes_ea (a : Word) (bs : List Byte) :
    (s.putBytes a bs).ea ra imm shift = s.ea ra imm shift := by
  simp [State.ea_eq]

theorem exec_stw : exec (.stw rv ra imm shift) s =
    endStore (memWrite s (s.ea ra imm shift) .word (s.readReg rv)) := rfl

theorem exec_sthw : exec (.sthw rv ra imm shift) s =
    endStore (memWrite s (s.ea ra imm shift) .half (s.readReg rv)) := rfl

theorem exec_stb : exec (.stb rv ra imm shift) s =
    endStore (memWrite s (s.ea ra imm shift) .byte (s.readReg rv)) := rfl

theorem exec_ldw : exec (.ldw rv ra imm shift) s = endLoad s rv (memRead32 s (s.ea ra imm shift)) := rfl

theorem exec_ldhw : exec (.ldhw rv ra imm shift) s =
    endLoad s rv ((memRead16 s (s.ea ra imm shift)).map (·.signExtend 32)) := rfl

theorem exec_ldhwu : exec (.ldhwu rv ra imm shift) s =
    endLoad s rv ((memRead16 s (s.ea ra imm shift)).map (·.zeroExtend 32)) := rfl

theorem exec_ldb : exec (.ldb rv ra imm shift) s =
    endLoad s rv ((memRead8 s (s.ea ra imm shift)).map (·.signExtend 32)) := rfl

theorem exec_ldbu : exec (.ldbu rv ra imm shift) s =
    endLoad s rv ((memRead8 s (s.ea ra imm shift)).map (·.zeroExtend 32)) := rfl

end LoadStore

/-- The instruction is the store of a width with these operands. -/
def IsStore (i : Instr) (w : Width) (rv ra : RegIdx) (imm : BitVec 12) (shift : Nat) : Prop :=
  (i = .stw rv ra imm shift ∧ w = .word) ∨ (i = .sthw rv ra imm shift ∧ w = .half) ∨
    (i = .stb rv ra imm shift ∧ w = .byte)

section Stores

variable {i : Instr} {w : Width} {rv ra : RegIdx} {imm : BitVec 12} {shift : Nat} {s t : State}
  (hi : IsStore i w rv ra imm shift)
include hi

theorem IsStore.access : i.access = some (w, ra, imm, shift) := by
  rcases hi with ⟨rfl, rfl⟩ | ⟨rfl, rfl⟩ | ⟨rfl, rfl⟩ <;> rfl

theorem IsStore.exec_eq : exec i s = endStore (memWrite s (s.ea ra imm shift) w (s.readReg rv)) := by
  rcases hi with ⟨rfl, rfl⟩ | ⟨rfl, rfl⟩ | ⟨rfl, rfl⟩
  · exact exec_stw ..
  · exact exec_sthw ..
  · exact exec_stb ..

/-- A store that passes its check completes (R136 to R138). -/
theorem IsStore.exec_of_ok (hok : checkAccess s (s.ea ra imm shift) w = .ok ()) :
    exec i s = .next (s.putBytes (s.ea ra imm shift) (storedBytes (s.readReg rv) w)).advance := by
  rw [hi.exec_eq, memWrite_of_ok hok]
  rfl

/-- A store that completes passed its check, and its bytes stand at its address. -/
theorem IsStore.holds_of_exec (h : exec i s = .next t) : checkAccess s (s.ea ra imm shift) w = .ok () ∧
    t.Holds (s.ea ra imm shift) (storedBytes (s.readReg rv) w) := by
  rw [hi.exec_eq] at h
  rcases endStore_memWrite s (s.ea ra imm shift) w (s.readReg rv) with ⟨hok, he⟩ | ⟨f, -, he⟩
  · rw [he] at h
    cases h
    exact ⟨hok, (State.advance_holds ..).2 (State.putBytes_holds s _ _ _)⟩
  · rw [he] at h
    cases h

end Stores

/-! ## Loading what was stored -/

theorem Completes.imp {i : Instr} {s : State} {P Q : State → Prop} (h : Completes i s P) (hpq : ∀ t, P t → Q t) :
    Completes i s Q := by
  obtain ⟨t, ht, hp⟩ := h
  exact ⟨t, ht, hpq t hp⟩

/-- After a store, in its own state, an access of its width at the same effective address passes the check and finds
the stored bytes (R42). -/
theorem IsStore.completes {i : Instr} {w : Width} {rv ra : RegIdx} {imm : BitVec 12} {shift : Nat} {s : State}
    (hi : IsStore i w rv ra imm shift) (hok : checkAccess s (s.ea ra imm shift) w = .ok ()) :
    Completes i s fun t => checkAccess t (t.ea ra imm shift) w = .ok () ∧
      t.Holds (t.ea ra imm shift) (storedBytes (s.readReg rv) w) := by
  have hexec := hi.exec_of_ok hok
  refine ⟨_, hexec, ?_⟩
  simp only [State.advance_ea, State.putBytes_ea, State.advance_holds]
  exact ⟨(checkAccess_congr (exec_config hexec) ..).trans hok, State.putBytes_holds s _ _ _⟩

/-- A load whose read succeeds puts the value in its register (R139). -/
theorem completes_of_endLoad {i : Instr} {s : State} {rd : RegIdx} {v : Word} (h : exec i s = endLoad s rd (.ok v)) :
    Completes i s fun u => u.readReg rd = v :=
  ⟨_, h, by simp⟩

section Loads

variable {s : State} {rd ra : RegIdx} {imm : BitVec 12} {shift : Nat} {v : Word} {b b0 b1 : Byte} {bs : List Byte}

theorem completes_ldw (hok : checkAccess s (s.ea ra imm shift) .word = .ok ())
    (h : s.Holds (s.ea ra imm shift) (bytesOfWord v)) :
    Completes (.ldw rd ra imm shift) s fun u => u.readReg rd = v :=
  completes_of_endLoad (by rw [exec_ldw, memRead32_of_holds h hok])

theorem completes_ldhw (hok : checkAccess s (s.ea ra imm shift) .half = .ok ())
    (h : s.Holds (s.ea ra imm shift) (b0 :: b1 :: bs)) :
    Completes (.ldhw rd ra imm shift) s fun u => u.readReg rd = (b0 ++ b1).signExtend 32 :=
  completes_of_endLoad (by rw [exec_ldhw, memRead16_of_holds h hok]; rfl)

theorem completes_ldhwu (hok : checkAccess s (s.ea ra imm shift) .half = .ok ())
    (h : s.Holds (s.ea ra imm shift) (b0 :: b1 :: bs)) :
    Completes (.ldhwu rd ra imm shift) s fun u => u.readReg rd = (b0 ++ b1).zeroExtend 32 :=
  completes_of_endLoad (by rw [exec_ldhwu, memRead16_of_holds h hok]; rfl)

theorem completes_ldb (hok : checkAccess s (s.ea ra imm shift) .byte = .ok ())
    (h : s.Holds (s.ea ra imm shift) (b :: bs)) :
    Completes (.ldb rd ra imm shift) s fun u => u.readReg rd = b.signExtend 32 :=
  completes_of_endLoad (by rw [exec_ldb, memRead8_of_holds h hok]; rfl)

theorem completes_ldbu (hok : checkAccess s (s.ea ra imm shift) .byte = .ok ())
    (h : s.Holds (s.ea ra imm shift) (b :: bs)) :
    Completes (.ldbu rd ra imm shift) s fun u => u.readReg rd = b.zeroExtend 32 :=
  completes_of_endLoad (by rw [exec_ldbu, memRead8_of_holds h hok]; rfl)

end Loads

/-- The bits from `n` up, zero extended, are the word shifted right by `n`. -/
theorem zeroExtend_extractLsb' (v : Word) {n l : Nat} (h : n + l = 32) :
    (v.extractLsb' n l).zeroExtend 32 = v >>> n := by
  ext i hi
  by_cases hil : i < l
  · simp [hil]
  · have hout : 32 ≤ n + i := by omega
    simp [hil, BitVec.getLsbD_of_ge _ _ hout]

/-! ## Encoded instructions decode -/

/-- Every instruction's encoded word fits a row that builds it (R78). -/
theorem matchesRow : ∀ i : Instr, Laws.MatchesRow.Statement i
  | .movil rd imm => Laws.MatchesRow.movil rd imm
  | .movih rd imm => Laws.MatchesRow.movih rd imm
  | .mov rd rb => Laws.MatchesRow.mov rd rb
  | .ldbu rv ra imm shift => Laws.MatchesRow.ldbu rv ra imm shift
  | .ldb rv ra imm shift => Laws.MatchesRow.ldb rv ra imm shift
  | .ldhwu rv ra imm shift => Laws.MatchesRow.ldhwu rv ra imm shift
  | .ldhw rv ra imm shift => Laws.MatchesRow.ldhw rv ra imm shift
  | .ldw rv ra imm shift => Laws.MatchesRow.ldw rv ra imm shift
  | .stb rv ra imm shift => Laws.MatchesRow.stb rv ra imm shift
  | .sthw rv ra imm shift => Laws.MatchesRow.sthw rv ra imm shift
  | .stw rv ra imm shift => Laws.MatchesRow.stw rv ra imm shift
  | .addu rd ra rb => Laws.MatchesRow.addu rd ra rb
  | .add rd ra rb => Laws.MatchesRow.add rd ra rb
  | .addi rd ra imm => Laws.MatchesRow.addi rd ra imm
  | .subu rd ra rb => Laws.MatchesRow.subu rd ra rb
  | .sub rd ra rb => Laws.MatchesRow.sub rd ra rb
  | .subi rd ra imm => Laws.MatchesRow.subi rd ra imm
  | .and rd ra rb => Laws.MatchesRow.and rd ra rb
  | .andi rd ra imm => Laws.MatchesRow.andi rd ra imm
  | .or rd ra rb => Laws.MatchesRow.or rd ra rb
  | .ori rd ra imm => Laws.MatchesRow.ori rd ra imm
  | .xor rd ra rb => Laws.MatchesRow.xor rd ra rb
  | .xori rd ra imm => Laws.MatchesRow.xori rd ra imm
  | .sl rd ra rb => Laws.MatchesRow.sl rd ra rb
  | .sli rd ra amount => Laws.MatchesRow.sli rd ra amount
  | .sr rd ra rb => Laws.MatchesRow.sr rd ra rb
  | .sri rd ra amount => Laws.MatchesRow.sri rd ra amount
  | .sra rd ra rb => Laws.MatchesRow.sra rd ra rb
  | .srai rd ra amount => Laws.MatchesRow.srai rd ra amount
  | .j imm shift => Laws.MatchesRow.j imm shift
  | .jr ra => Laws.MatchesRow.jr ra
  | .jl rd imm shift => Laws.MatchesRow.jl rd imm shift
  | .jlr rd ra imm => Laws.MatchesRow.jlr rd ra imm
  | .beq imm => Laws.MatchesRow.beq imm
  | .blt imm => Laws.MatchesRow.blt imm
  | .bge imm => Laws.MatchesRow.bge imm
  | .bne imm => Laws.MatchesRow.bne imm
  | .nop => Laws.MatchesRow.nop
  | .halt => Laws.MatchesRow.halt

/-- On a machine with well-formed parameters a well-formed instruction is read back from its word. -/
theorem decode_encode {c : Config} {i : Instr} (hc : c.wf = true) (hi : i.wf = true) :
    decode c (encode c i) = .ok i := by
  obtain ⟨r, hr, hfits, hbuild⟩ := matchesRow i hi c
  rw [decode_of_row hc hr hfits, hbuild]

/-! ## The invariant -/

/-- An instruction that completes keeps the invariant: a store writes inside `MEM_MAP`, and nothing else touches
memory. -/
theorem Inv.exec {i : Instr} {s t : State} (hs : Inv s) (h : exec i s = .next t) : Inv t := by
  cases exec_effect h with
  | store _ _ _ _ _ _ _ hok => exact (hs.putBytes ((checkAccess_ok_iff ..).1 hok).2 _).congr rfl rfl
  | reg | regFlags | jump | link | nop | halt => exact hs.congr rfl rfl

/-! ## The obligations -/

/-- Settles O11: a step that goes on stutters, or runs an instruction that keeps the invariant. -/
theorem everyStepKeepsTheInvariant : Obligations.EveryStepKeepsTheInvariant := by
  intro s t hs h
  rcases step_next h with ⟨-, rfl⟩ | ⟨-, _, _, -, -, he⟩
  · exact hs
  · exact hs.exec he

/-- Settles O12: no instruction changes the parameters or the power-up. -/
theorem stepsKeepParametersAndPowerUp : Obligations.StepsKeepParametersAndPowerUp := by
  intro s t h
  rcases step_next h with ⟨-, rfl⟩ | ⟨-, _, _, -, -, he⟩
  · exact ⟨rfl, rfl⟩
  · exact ⟨exec_config he, exec_powerUp he⟩

/-- Settles O13: each read is its check, then the bytes side by side. -/
theorem memReadChecksThenReadsBigEndian : Obligations.MemReadChecksThenReadsBigEndian := by
  intro s a
  have hbyte : a.toNat % Width.byte.bytes = 0 := Nat.mod_one _
  refine ⟨fun hm => ?_, fun hm => ?_, fun h => ?_, fun h hm => ?_, fun h hm hm' => ?_, fun h => ?_, fun h hm => ?_,
    fun h hm => ?_⟩
  · exact memRead8_of_error (checkAccess_unmapped hbyte (by simpa using hm))
  · exact memRead8_of_ok (checkAccess_mapped hbyte (by simpa using hm))
  · exact memRead16_of_error (checkAccess_misaligned h)
  · exact memRead16_of_error (checkAccess_unmapped h (by rwa [mappedAccess_half]))
  · exact ⟨_, memRead16_of_ok (checkAccess_mapped h (by simp [mappedAccess_half, hm, hm'])), append_toNat ..⟩
  · exact memRead32_of_error (checkAccess_misaligned h)
  · exact memRead32_of_error (checkAccess_unmapped h ((mappedAccess_eq_false_iff ..).2 hm))
  · exact ⟨_, memRead32_of_ok (checkAccess_mapped h ((mappedAccess_iff ..).2 hm)), wordOfBytes_toNat ..⟩

/-- Settles O14: a write is its check, then the value's digits put from the address up. -/
theorem memWriteChecksThenWritesBigEndian : Obligations.MemWriteChecksThenWritesBigEndian := by
  intro s a v w
  refine ⟨fun h => memWrite_of_error (checkAccess_misaligned h) v,
    fun h hm => memWrite_of_error (checkAccess_unmapped h ((mappedAccess_eq_false_iff ..).2 hm)) v, fun h hm => ?_⟩
  refine ⟨_, memWrite_of_ok (checkAccess_mapped h ((mappedAccess_iff ..).2 hm)) v, fun k hk => ?_, fun b hb => ?_,
    State.putBytes_readReg s a _, by simp, by simp, by simp [SameMachine]⟩
  · have hk' : k < (storedBytes v w).length := by simpa using hk
    rw [State.putBytes_holds s a v w k hk', storedBytes_getElem_toNat]
  · exact State.putBytes_byteAt_of_outside s a _ (storedBytes_length_le v w) (by simpa using hb)

/-- Settles O15: the bytes of the store stand at the address that the load computes again. -/
theorem loadAfterStoreReturnsWhatWasStored : Obligations.LoadAfterStoreReturnsWhatWasStored := by
  intro s rv ra rd imm shift
  refine ⟨fun ha hm => ?_, fun ha hm => ?_, fun hm => ?_⟩
  · have hi : IsStore (.stw rv ra imm shift) .word rv ra imm shift := .inl ⟨rfl, rfl⟩
    refine (hi.completes ((checkAccess_ok_iff ..).2 ⟨ha, hm⟩)).imp fun t ⟨hok, hh⟩ => ⟨completes_ldw hok hh, ?_, ?_⟩
    · refine (completes_ldhwu (checkAccess_of_wider hok (by decide)) hh).imp fun u hu => hu.trans ?_
      rw [BitVec.extractLsb'_append_extractLsb'_eq_extractLsb' (by rfl)]
      exact zeroExtend_extractLsb' _ rfl
    · refine (completes_ldbu (checkAccess_of_wider hok (by decide)) hh).imp fun u hu => hu.trans ?_
      exact zeroExtend_extractLsb' _ rfl
  · have hi : IsStore (.sthw rv ra imm shift) .half rv ra imm shift := .inr (.inl ⟨rfl, rfl⟩)
    refine (hi.completes ((checkAccess_ok_iff ..).2 ⟨ha, hm⟩)).imp fun t ⟨hok, hh⟩ => ?_
    have hbytes : ((s.readReg rv).extractLsb' 8 8 ++ (s.readReg rv).extractLsb' 0 8 : Half) =
        (s.readReg rv).extractLsb' 0 16 := BitVec.extractLsb'_append_extractLsb'_eq_extractLsb' rfl
    rw [← hbytes]
    exact ⟨completes_ldhw hok hh, completes_ldhwu hok hh⟩
  · have hi : IsStore (.stb rv ra imm shift) .byte rv ra imm shift := .inr (.inr ⟨rfl, rfl⟩)
    have hok : checkAccess s (s.ea ra imm shift) .byte = .ok () := (checkAccess_ok_iff ..).2 ⟨aligned_byte _, by simpa⟩
    exact (hi.completes hok).imp fun t ⟨hok, hh⟩ => ⟨completes_ldb hok hh, completes_ldbu hok hh⟩

/-- Settles O16: a fetch is a read at the pc, and the word's bytes are the bytes read. -/
theorem fetchReadsTheInstructionWordBigEndian : Obligations.FetchReadsTheInstructionWordBigEndian := by
  intro s w h
  refine ⟨memRead32_of_fetch h, ?_⟩
  simpa [bytesOfWord] using bytesOfWord_of_fetch h

/-- Settles O17: the stored word's bytes still stand at the pc, so it is fetched and decodes to the instruction. -/
theorem storedInstructionIsWhatTheNextFetchRuns : Obligations.StoredInstructionIsWhatTheNextFetchRuns := by
  intro s t u i rv ra imm shift hc hi hv h hpc hu hconf hbytes
  have hstw : IsStore (.stw rv ra imm shift) .word rv ra imm shift := .inl ⟨rfl, rfl⟩
  obtain ⟨hok, hh⟩ := hstw.holds_of_exec h
  have hconf' : u.config = s.config := hconf.trans (exec_config h)
  rw [← hpc, hv] at hh
  rw [← hpc] at hok hbytes
  have hfetch : fetch u = .ok (encode s.config i) :=
    fetch_of_memRead32 ((checkAccess_ok_iff ..).1 hok).1
      (memRead32_of_holds (hh.of_byteAt_eq hbytes) ((checkAccess_congr hconf' ..).trans hok))
  exact step_decoded hu hfetch (by rw [hconf', decode_encode hc hi])

/-- Settles O54: each byte of the fetched word is read after the store, inside its bytes or outside them. -/
theorem fetchSeesTheBytesOfEveryStore : Obligations.FetchSeesTheBytesOfEveryStore := by
  intro s t u i w rv ra imm shift a hi hea h hp hm hbytes
  have hi : IsStore i w rv ra imm shift := hi
  subst hea
  have hfetch := fetch_mapped ((aligned_iff u.pc .word).2 hp) ((mappedAccess_iff u.config u.pc .word).2 hm)
  refine ⟨_, hfetch, fun k hk => ?_⟩
  rw [fetch_digit hfetch hk, hbytes k hk]
  refine ⟨fun j hj heq => ?_, fun hout => ?_⟩
  · have hj' : j < (storedBytes (s.readReg rv) w).length := by simpa using hj
    rw [heq, (hi.holds_of_exec h).2 j hj', storedBytes_getElem_toNat]
  · rw [exec_byteAt_of_outside hi.access h hout]

/-- Settles O10: after reset memory is as loaded. -/
theorem invariantHoldsAtReset : Obligations.InvariantHoldsAtReset := by
  have loaded : ∀ (c : Config) (m : Memory), m.wf → (∀ p ∈ m, mapped c (BitVec.ofNat 32 p.1) = true) →
      Inv (State.resetWith c m) := fun _ _ hwf hmap => ⟨hwf, hmap⟩
  exact ⟨loaded .defaults [] (by decide) (by simp), loaded⟩

end Sys2Proof.Machine
end

section
/-! SUPPORT. Encoding (30_encoding.md): the cell of an opcode and ext, that a word of a row is the encoding of what the
row builds, the word of each format as a number, words that are no instruction, immediates as scaled integers, and the
fields that reach a target; then the proofs of the statements of that chapter. -/

namespace Sys2Proof

/-! ## Cells of the opcode map

A row's pattern is the word of its opcode and ext with zero in every other bit. -/

/-- The word with this opcode and ext, and zero in every other bit (R51, R64). -/
def opcodeCell (op : BitVec 6) (ext : BitVec 2) : Word := op ++ 0#4 ++ 0#4 ++ ext ++ 0#16

section CellFields

variable {w mask : Word} {op : BitVec 6} {ext : BitVec 2} (h : w &&& mask = opcodeCell op ext)
include h

theorem opcode_of_masked (hm : mask.extractLsb' 26 6 = BitVec.allOnes 6 := by decide) : w.extractLsb' 26 6 = op :=
  field_of_masked h hm <| by
    simp (disch := omega) only [opcodeCell, BitVec.extractLsb'_append_eq_of_le]
    simp

theorem ext_of_masked (hm : mask.extractLsb' 16 2 = BitVec.allOnes 2 := by decide) : w.extractLsb' 16 2 = ext :=
  field_of_masked h hm <| by
    simp (disch := omega) only [opcodeCell, BitVec.extractLsb'_append_eq_of_le, BitVec.extractLsb'_append_eq_of_add_le]
    simp

theorem rd_zero_of_masked (hm : mask.extractLsb' 22 4 = BitVec.allOnes 4 := by decide) : w.extractLsb' 22 4 = 0#4 :=
  field_of_masked h hm <| by
    simp (disch := omega) only [opcodeCell, BitVec.extractLsb'_append_eq_of_le, BitVec.extractLsb'_append_eq_of_add_le]
    simp

theorem ra_zero_of_masked (hm : mask.extractLsb' 18 4 = BitVec.allOnes 4 := by decide) : w.extractLsb' 18 4 = 0#4 :=
  field_of_masked h hm <| by
    simp (disch := omega) only [opcodeCell, BitVec.extractLsb'_append_eq_of_le, BitVec.extractLsb'_append_eq_of_add_le]
    simp

theorem low_zero_of_masked {s l : Nat} (hsl : s + l ≤ 16 := by decide)
    (hm : mask.extractLsb' s l = BitVec.allOnes l := by decide) : w.extractLsb' s l = 0#l :=
  field_of_masked h hm <| by
    simp (disch := omega) only [opcodeCell, BitVec.extractLsb'_append_eq_of_add_le]
    simp

end CellFields

/-! ## The word of a row is the encoding of what the row builds

One lemma per format; what the mask keeps of a word determines opcode, ext and the reserved bits, and the other fields
are those the row cuts out. That the row builds an instruction of the format is checked by evaluation, row by row. -/

/-- A word that fits the row is the encoding of the instruction the row builds, which is well formed. -/
def OpRow.RoundTrips (r : OpRow) : Prop :=
  ∀ (c : Config) (w : Word), w &&& r.mask = r.pattern → (r.build w).wf = true ∧ encode c (r.build w) = w

section Formats

variable {m : String} {pattern : Word} {op : BitVec 6} {ext : BitVec 2}

theorem roundTrips_RRR {f : RegIdx → RegIdx → RegIdx → Instr}
    (hwf : ∀ d a b, (f d a b).wf = true := by intros; rfl)
    (henc : ∀ c d a b, encode c (f d a b) = encodeRRR op ext d a b := by intros; rfl)
    (hp : pattern = opcodeCell op ext := by rfl) :
    OpRow.RoundTrips ⟨m, pattern, 0xFC03FFF0#32, fun w => f (fieldRd w) (fieldRa w) (fieldRb w)⟩ := by
  intro c w (h : w &&& 0xFC03FFF0#32 = pattern)
  subst hp
  refine ⟨hwf .., (henc ..).trans ?_⟩
  exact encodeRRR_of_fields (opcode_of_masked h) (ext_of_masked h) (low_zero_of_masked h)

theorem roundTrips_RRI {f : RegIdx → RegIdx → BitVec 16 → Instr}
    (hwf : ∀ d a imm, (f d a imm).wf = true := by intros; rfl)
    (henc : ∀ c d a imm, encode c (f d a imm) = encodeRRI op ext d a imm := by intros; rfl)
    (hp : pattern = opcodeCell op ext := by rfl) :
    OpRow.RoundTrips ⟨m, pattern, 0xFC030000#32, fun w => f (fieldRd w) (fieldRa w) (fieldImm16 w)⟩ := by
  intro c w (h : w &&& 0xFC030000#32 = pattern)
  subst hp
  refine ⟨hwf .., (henc ..).trans ?_⟩
  exact encodeRRI_of_fields (opcode_of_masked h) (ext_of_masked h)

theorem roundTrips_RRi {f : RegIdx → RegIdx → Nat → Instr}
    (hwf : ∀ d a n, (f d a n).wf = amountFits n := by intros; rfl)
    (henc : ∀ c d a n, encode c (f d a n) = encodeRRi op ext d a n := by intros; rfl)
    (hp : pattern = opcodeCell op ext := by rfl) :
    OpRow.RoundTrips ⟨m, pattern, 0xFC03FFE0#32, fun w => f (fieldRd w) (fieldRa w) (fieldAmount w)⟩ := by
  intro c w (h : w &&& 0xFC03FFE0#32 = pattern)
  subst hp
  refine ⟨(hwf ..).trans (decide_eq_true (BitVec.isLt _)), (henc ..).trans ?_⟩
  exact encodeRRi_of_fields (opcode_of_masked h) (ext_of_masked h) (low_zero_of_masked h)

theorem roundTrips_R_R {f : RegIdx → RegIdx → Instr}
    (hwf : ∀ d b, (f d b).wf = true := by intros; rfl)
    (henc : ∀ c d b, encode c (f d b) = encodeR_R op ext d b := by intros; rfl)
    (hp : pattern = opcodeCell op ext := by rfl) :
    OpRow.RoundTrips ⟨m, pattern, 0xFC3FFFF0#32, fun w => f (fieldRd w) (fieldRb w)⟩ := by
  intro c w (h : w &&& 0xFC3FFFF0#32 = pattern)
  subst hp
  refine ⟨hwf .., (henc ..).trans ?_⟩
  exact encodeR_R_of_fields (opcode_of_masked h) (ext_of_masked h) (low_zero_of_masked h) (ra_zero_of_masked h)

theorem roundTrips_R_I {f : RegIdx → BitVec 16 → Instr}
    (hwf : ∀ d imm, (f d imm).wf = true := by intros; rfl)
    (henc : ∀ c d imm, encode c (f d imm) = encodeR_I op ext d imm := by intros; rfl)
    (hp : pattern = opcodeCell op ext := by rfl) :
    OpRow.RoundTrips ⟨m, pattern, 0xFC3F0000#32, fun w => f (fieldRd w) (fieldImm16 w)⟩ := by
  intro c w (h : w &&& 0xFC3F0000#32 = pattern)
  subst hp
  refine ⟨hwf .., (henc ..).trans ?_⟩
  exact encodeR_I_of_fields (opcode_of_masked h) (ext_of_masked h) (ra_zero_of_masked h)

theorem roundTrips_RRSI {f : RegIdx → RegIdx → BitVec 12 → Nat → Instr}
    (hwf : ∀ v a imm n, (f v a imm n).wf = memShiftFits n := by intros; rfl)
    (henc : ∀ c v a imm n, encode c (f v a imm n) = encodeRRSI op ext v a imm n := by intros; rfl)
    (hp : pattern = opcodeCell op ext := by rfl) :
    OpRow.RoundTrips ⟨m, pattern, 0xFC030000#32,
      fun w => f (fieldRd w) (fieldRa w) (fieldImm12 w) (fieldMemShift w)⟩ := by
  intro c w (h : w &&& 0xFC030000#32 = pattern)
  subst hp
  refine ⟨(hwf ..).trans (decide_eq_true (BitVec.isLt _)), (henc ..).trans ?_⟩
  exact encodeRRSI_of_fields (opcode_of_masked h) (ext_of_masked h)

theorem roundTrips_branch {f : BitVec 16 → Instr}
    (hwf : ∀ imm, (f imm).wf = true := by intros; rfl)
    (henc : ∀ c imm, encode c (f imm) = encodeBranch op ext imm := by intros; rfl)
    (hp : pattern = opcodeCell op ext := by rfl) :
    OpRow.RoundTrips ⟨m, pattern, 0xFFFF0000#32, fun w => f (fieldImm16 w)⟩ := by
  intro c w (h : w &&& 0xFFFF0000#32 = pattern)
  subst hp
  refine ⟨hwf .., (henc ..).trans ?_⟩
  exact encodeBranch_of_fields (opcode_of_masked h) (ext_of_masked h) (rd_zero_of_masked h) (ra_zero_of_masked h)

end Formats

theorem roundTrips_J {m : String} :
    OpRow.RoundTrips ⟨m, 0x80030000#32, 0xFFC30000#32, fun w => .j (fieldImm16 w) (fieldJumpShift w)⟩ := by
  intro c w (h : w &&& 0xFFC30000#32 = opcodeCell 0b100000#6 0b11#2)
  refine ⟨decide_eq_true (BitVec.isLt _), ?_⟩
  exact encodeJ_of_fields (opcode_of_masked h) (ext_of_masked h) (rd_zero_of_masked h)

theorem roundTrips_JR {m : String} :
    OpRow.RoundTrips ⟨m, 0x84020000#32, 0xFFC3FFFF#32, fun w => .jr (fieldRa w)⟩ := by
  intro c w (h : w &&& 0xFFC3FFFF#32 = opcodeCell 0b100001#6 0b10#2)
  refine ⟨rfl, ?_⟩
  exact encodeJR_of_fields (opcode_of_masked h) (ext_of_masked h) (low_zero_of_masked h) (rd_zero_of_masked h)

theorem roundTrips_JL {m : String} :
    OpRow.RoundTrips ⟨m, 0x88030000#32, 0xFC030000#32,
      fun w => .jl (fieldRd w) (fieldImm16 w) (fieldJumpShift w)⟩ := by
  intro c w (h : w &&& 0xFC030000#32 = opcodeCell 0b100010#6 0b11#2)
  refine ⟨decide_eq_true (BitVec.isLt _), ?_⟩
  exact encodeJL_of_fields (opcode_of_masked h) (ext_of_masked h)

/-- Every row of the opcode map makes the round trip, by its format; below, a line for each group of the map. -/
theorem opcodeTable_roundTrips : ∀ r ∈ opcodeTable, r.RoundTrips := by
  simp only [opcodeTable, moveRows, loadRows, storeRows, arithmeticRows, logicRows, shiftRows, jumpRows, branchRows,
    List.forall_mem_append, List.forall_mem_cons, List.not_mem_nil, false_imp_iff, implies_true, and_true, and_assoc]
  exact ⟨
    roundTrips_R_I, roundTrips_R_I, roundTrips_R_R,
    roundTrips_RRSI, roundTrips_RRSI, roundTrips_RRSI, roundTrips_RRSI, roundTrips_RRSI,
    roundTrips_RRSI, roundTrips_RRSI, roundTrips_RRSI,
    roundTrips_RRR, roundTrips_RRR, roundTrips_RRI, roundTrips_RRR, roundTrips_RRR, roundTrips_RRI,
    roundTrips_RRR, roundTrips_RRI, roundTrips_RRR, roundTrips_RRI, roundTrips_RRR, roundTrips_RRI,
    roundTrips_RRR, roundTrips_RRi, roundTrips_RRR, roundTrips_RRi, roundTrips_RRR, roundTrips_RRi,
    roundTrips_J, roundTrips_JR, roundTrips_JL, roundTrips_RRI,
    roundTrips_branch, roundTrips_branch, roundTrips_branch, roundTrips_branch⟩

/-- The rows of a machine are those of the opcode map, NOP and HALT (R66). -/
theorem Config.mem_rows {c : Config} {r : OpRow} : r ∈ c.rows ↔ r ∈ opcodeTable ∨
    r = ⟨"NOP", c.encNop, 0xFFFFFFFF#32, fun _ => .nop⟩ ∨ r = ⟨"HALT", c.encHalt, 0xFFFFFFFF#32, fun _ => .halt⟩ := by
  simp [Config.rows]

/-- A decoded word is the encoding of its instruction, which is well formed. -/
theorem encode_of_decode {c : Config} {w : Word} {i : Instr} (h : decode c w = .ok i) :
    i.wf = true ∧ encode c i = w := by
  obtain ⟨r, hr, hw, rfl⟩ := row_of_decode h
  rcases Config.mem_rows.1 hr with hr | rfl | rfl
  · exact opcodeTable_roundTrips r hr c w ((OpRow.fits_iff r w).1 hw)
  · exact ⟨rfl, (beq_iff_eq.1 (fits_whole_word .. ▸ hw)).symm⟩
  · exact ⟨rfl, (beq_iff_eq.1 (fits_whole_word .. ▸ hw)).symm⟩

/-! ## The word of each format as a number -/

theorem regBits_toNat (r : RegIdx) : (regBits r).toNat = r.val := Nat.mod_eq_of_lt r.isLt

theorem opcodeCell_toNat (op : BitVec 6) (ext : BitVec 2) :
    (opcodeCell op ext).toNat = op.toNat * 2 ^ 26 + ext.toNat * 2 ^ 16 := by
  simp only [opcodeCell, append_toNat, BitVec.toNat_ofNat]
  omega

section Numbers

variable (op : BitVec 6) (ext : BitVec 2) (d a b : RegIdx) (imm : BitVec 16) (imm12 : BitVec 12) {amount shift : Nat}

theorem encodeRRR_toNat :
    (encodeRRR op ext d a b).toNat = (opcodeCell op ext).toNat + d.val * 2 ^ 22 + a.val * 2 ^ 18 + b.val := by
  simp only [encodeRRR, append_toNat, regBits_toNat, opcodeCell_toNat, BitVec.toNat_ofNat]
  omega

theorem encodeRRI_toNat :
    (encodeRRI op ext d a imm).toNat = (opcodeCell op ext).toNat + d.val * 2 ^ 22 + a.val * 2 ^ 18 + imm.toNat := by
  simp only [encodeRRI, append_toNat, regBits_toNat, opcodeCell_toNat]
  omega

theorem encodeRRi_toNat (h : amount < 32) :
    (encodeRRi op ext d a amount).toNat = (opcodeCell op ext).toNat + d.val * 2 ^ 22 + a.val * 2 ^ 18 + amount := by
  simp only [encodeRRi, append_toNat, regBits_toNat, opcodeCell_toNat, BitVec.toNat_ofNat]
  omega

theorem encodeR_R_toNat : (encodeR_R op ext d b).toNat = (opcodeCell op ext).toNat + d.val * 2 ^ 22 + b.val := by
  simp only [encodeR_R, append_toNat, regBits_toNat, opcodeCell_toNat, BitVec.toNat_ofNat]
  omega

theorem encodeR_I_toNat : (encodeR_I op ext d imm).toNat = (opcodeCell op ext).toNat + d.val * 2 ^ 22 + imm.toNat := by
  simp only [encodeR_I, append_toNat, regBits_toNat, opcodeCell_toNat, BitVec.toNat_ofNat]
  omega

theorem encodeRRSI_toNat (h : shift < 16) : (encodeRRSI op ext d a imm12 shift).toNat =
    (opcodeCell op ext).toNat + d.val * 2 ^ 22 + a.val * 2 ^ 18 + shift * 2 ^ 12 + imm12.toNat := by
  simp only [encodeRRSI, append_toNat, regBits_toNat, opcodeCell_toNat, BitVec.toNat_ofNat]
  omega

theorem encodeBranch_toNat : (encodeBranch op ext imm).toNat = (opcodeCell op ext).toNat + imm.toNat := by
  simp only [encodeBranch, append_toNat, opcodeCell_toNat, BitVec.toNat_ofNat]
  omega

theorem encodeJ_toNat (h : shift < 16) :
    (encodeJ imm shift).toNat = (opcodeCell 0b100000#6 0b11#2).toNat + shift * 2 ^ 18 + imm.toNat := by
  simp only [encodeJ, append_toNat, opcodeCell_toNat, BitVec.toNat_ofNat]
  omega

theorem encodeJR_toNat : (encodeJR a).toNat = (opcodeCell 0b100001#6 0b10#2).toNat + a.val * 2 ^ 18 := by
  simp only [encodeJR, append_toNat, regBits_toNat, opcodeCell_toNat, BitVec.toNat_ofNat]
  omega

theorem encodeJL_toNat (h : shift < 16) : (encodeJL d imm shift).toNat =
    (opcodeCell 0b100010#6 0b11#2).toNat + d.val * 2 ^ 22 + shift * 2 ^ 18 + imm.toNat := by
  simp only [encodeJL, append_toNat, regBits_toNat, opcodeCell_toNat, BitVec.toNat_ofNat]
  omega

end Numbers

/-! ## At most one row, and words of no row -/

/-- No word fits two rows of a machine with well-formed parameters (R66, R78). -/
theorem rows_pairwise_not_fits {c : Config} (hc : c.wf = true) (w : Word) :
    c.rows.Pairwise fun r q => r.fits w = true → q.fits w = false := by
  obtain ⟨hne, hnop, hhalt⟩ := (Config.wf_iff c).1 hc
  refine List.pairwise_append.2 ⟨opcodeTable_disjoint.imp fun h hr => h.not_fits hr, ?_, fun r hr q hq hrw => ?_⟩
  · simp only [List.pairwise_pair, fits_whole_word, beq_iff_eq, beq_eq_false_iff_ne]
    rintro rfl
    exact hne
  · simp only [List.mem_cons, List.not_mem_nil, or_false] at hq
    rcases hq with rfl | rfl <;> rw [fits_whole_word, beq_eq_false_iff_ne] <;> rintro rfl
    · simp [hnop r hr] at hrw
    · simp [hhalt r hr] at hrw

/-- At most one row of a machine with well-formed parameters is fitted by a word (R78). -/
theorem rows_filter_fits_length {c : Config} (hc : c.wf = true) (w : Word) :
    (c.rows.filter (·.fits w)).length ≤ 1 := by
  have hp := (rows_pairwise_not_fits hc w).filter (·.fits w)
  have hall : ∀ r ∈ c.rows.filter (·.fits w), r.fits w = true := fun r hr => (List.mem_filter.1 hr).2
  generalize c.rows.filter (·.fits w) = l at hp hall ⊢
  match l with
  | [] | [_] => simp
  | r :: q :: _ =>
    have hq : q.fits w = false := (List.pairwise_cons.1 hp).1 q (by simp) (hall r (by simp))
    simp [hall q] at hq

/-- Every row fixes opcode and ext, and has zero in every other bit of its pattern. -/
theorem opcodeTable_mask_cell : ∀ r ∈ opcodeTable,
    r.mask &&& 0xFC030000#32 = 0xFC030000#32 ∧ r.pattern &&& 0xFC030000#32 = r.pattern := by decide

/-- The opcode and ext of a word that fits a row are the row's. -/
theorem cell_of_fits {r : OpRow} (hr : r ∈ opcodeTable) {w : Word} (h : r.fits w = true) :
    w &&& 0xFC030000#32 = r.pattern := by
  obtain ⟨hm, hp⟩ := opcodeTable_mask_cell r hr
  rw [← hp, ← (OpRow.fits_iff r w).1 h, BitVec.and_assoc, hm]

/-- No two rows share opcode and ext (R64). -/
theorem opcodeTable_pattern_nodup : (opcodeTable.map (·.pattern)).Nodup := by decide

/-- The bits that a row fixes beside opcode and ext: the reserved bits of its format (R77). -/
def OpRow.reserved (r : OpRow) : Word := r.mask &&& ~~~0xFC030000#32

/-- The reserved bits of a word that fits a row are 0. -/
theorem reserved_zero_of_fits {r : OpRow} (hr : r ∈ opcodeTable) {w : Word} (h : r.fits w = true) :
    w &&& r.reserved = 0#32 := by
  obtain ⟨-, hp⟩ := opcodeTable_mask_cell r hr
  rw [OpRow.reserved, ← BitVec.and_assoc, (OpRow.fits_iff r w).1 h, ← hp, BitVec.and_assoc, BitVec.and_not_self]
  exact BitVec.and_zero

theorem rejectOf_of_cell {w : Word} (h : ∃ r ∈ opcodeTable, w &&& 0xFC030000#32 = r.pattern) :
    rejectOf w = .reservedBitsSet w := by
  obtain ⟨r, hr, hw⟩ := h
  have hany : opcodeTable.any (fun r => w &&& 0xFC030000#32 == r.pattern &&& 0xFC030000#32) = true :=
    List.any_eq_true.2 ⟨r, hr, by simp [hw, (opcodeTable_mask_cell r hr).2]⟩
  simp only [rejectOf, hany, if_true]

theorem rejectOf_of_no_cell {w : Word} (h : ∀ r ∈ opcodeTable, w &&& 0xFC030000#32 ≠ r.pattern) :
    rejectOf w = .unassigned w := by
  have hany : opcodeTable.any (fun r => w &&& 0xFC030000#32 == r.pattern &&& 0xFC030000#32) = false :=
    List.any_eq_false.2 fun r hr => by simpa [(opcodeTable_mask_cell r hr).2] using h r hr
  simp [rejectOf, hany]

section NoRow

variable {c : Config} {w : Word} (hnop : w ≠ c.encNop) (hhalt : w ≠ c.encHalt)
include hnop hhalt

/-- A word that is not the machine's NOP or HALT and fits no row of the opcode map is rejected. -/
theorem decode_of_not_fits (h : ∀ r ∈ opcodeTable, r.fits w = false) : decode c w = .error (rejectOf w) := by
  refine decode_of_no_row fun r hr => ?_
  rcases Config.mem_rows.1 hr with hr | rfl | rfl
  · exact h r hr
  · rwa [fits_whole_word, beq_eq_false_iff_ne]
  · rwa [fits_whole_word, beq_eq_false_iff_ne]

/-- An opcode and ext in no cell of the map are no instruction (R64). -/
theorem decode_unassigned (h : ∀ r ∈ opcodeTable, w &&& 0xFC030000#32 ≠ r.pattern) :
    decode c w = .error (.unassigned w) := by
  rw [decode_of_not_fits hnop hhalt fun r hr => Bool.eq_false_iff.2 fun hw => h r hr (cell_of_fits hr hw),
    rejectOf_of_no_cell h]

/-- A word with the opcode and ext of a row and one of its reserved bits set is no instruction (R77): the only row it
could fit is that one. -/
theorem decode_reservedBitsSet {r : OpRow} (hr : r ∈ opcodeTable) (hcell : w &&& 0xFC030000#32 = r.pattern)
    (hset : w &&& r.reserved ≠ 0#32) : decode c w = .error (.reservedBitsSet w) := by
  rw [decode_of_not_fits hnop hhalt fun q hq => Bool.eq_false_iff.2 fun hw => ?_, rejectOf_of_cell ⟨r, hr, hcell⟩]
  obtain rfl : q = r :=
    List.inj_on_of_nodup_map opcodeTable_pattern_nodup hq hr ((cell_of_fits hq hw).symm.trans hcell)
  exact hset (reserved_zero_of_fits hr hw)

end NoRow

end Sys2Proof

namespace Sys2Proof.Machine

/-! ## Immediates, and the fields that reach a target -/

theorem exec_j (imm : BitVec 16) (shift : Nat) (s : State) :
    exec (.j imm shift) s = .next (s.setPc (s.pc + jumpOffset imm shift)) := rfl

theorem exec_jl (rd : RegIdx) (imm : BitVec 16) (shift : Nat) (s : State) :
    exec (.jl rd imm shift) s = .next ((s.writeReg rd s.nextPc).setPc (s.pc + jumpOffset imm shift)) := rfl

/-- The field that an assembler cuts out of an offset which is a 16-bit field shifted left by `k`. -/
def fieldOf (offset : Word) (k : Nat) : BitVec 16 := (offset.sshiftRight k).setWidth 16

/-- A bit of the field that the shift keeps below bit 32 is cut out of the offset again. -/
theorem fieldOf_getElem (imm : BitVec 16) {k i : Nat} (hi : i < 16) (hk : k + i < 32) :
    (fieldOf (imm.signExtend 32 <<< k) k)[i] = imm[i] := by
  have hi' : i < 32 := by omega
  simp [fieldOf, BitVec.getElem_sshiftRight, BitVec.getElem_signExtend, hi, hi', hk]

/-- Where no bit of the field is shifted out, the field cut out of its offset is the field itself. -/
theorem fieldOf_signExtend_shiftLeft_of_le (imm : BitVec 16) {k : Nat} (hk : k ≤ 16) :
    fieldOf (imm.signExtend 32 <<< k) k = imm := by
  ext i hi
  exact fieldOf_getElem imm hi (by omega)

/-- If any field gives the offset, the one cut out of it does; where bits of the field are shifted out, it is another
field with the same offset. -/
theorem signExtend_fieldOf_shiftLeft (imm : BitVec 16) (k : Nat) :
    (fieldOf (imm.signExtend 32 <<< k) k).signExtend 32 <<< k = imm.signExtend 32 <<< k := by
  ext i hi
  simp only [BitVec.getElem_shiftLeft, BitVec.getElem_signExtend, BitVec.msb_eq_getLsbD_last]
  by_cases hik : i < k
  · simp [hik]
  · by_cases hfield : i - k < 16
    · simp [hfield, fieldOf_getElem imm hfield (by omega : k + (i - k) < 32)]
    · simp [hfield, fieldOf_getElem imm (by omega : 15 < 16) (by omega : k + 15 < 32)]

/-- The fields that one shift of a J or JL offers for a target. -/
def jumpFieldsAt (here target : Word) (shift : Nat) : Option (BitVec 16 × Nat) :=
  let imm := fieldOf (target - here) (shift + 2)
  if jumpOffset imm shift = target - here then some (imm, shift) else none

theorem jumpFields_eq (here target : Word) :
    jumpFields here target = (List.range 16).findSome? (jumpFieldsAt here target) := rfl

theorem branchFields_eq (here target : Word) : branchFields here target =
    if wordOffset (fieldOf (target - here) 2) = target - here then some (fieldOf (target - here) 2) else none := rfl

section Where

variable {here target : Word} {imm : BitVec 16} {shift : Nat}

theorem offset_of_reaches {offset : Word} (h : here + offset = target) : target - here = offset := by
  rw [← h]
  exact add_sub_cancel_left here offset

theorem reaches_of_offset {offset : Word} (h : offset = target - here) : here + offset = target := by
  rw [h]
  exact add_sub_cancel here target

/-- The field found for a branch reaches the target. -/
theorem reaches_of_branchFields (h : branchFields here target = some imm) : here + wordOffset imm = target := by
  rw [branchFields_eq, Option.ite_none_right_eq_some, Option.some_inj] at h
  obtain ⟨hoff, rfl⟩ := h
  exact reaches_of_offset hoff

/-- A branch that some field takes to the target is found one. -/
theorem branchFields_ne_none (h : here + wordOffset imm = target) : branchFields here target ≠ none := by
  simp only [branchFields_eq, offset_of_reaches h, wordOffset_eq, signExtend_fieldOf_shiftLeft, if_true]
  exact Option.some_ne_none _

/-- The fields found at one shift are of that shift and reach the target. -/
theorem reaches_of_jumpFieldsAt {n : Nat} (h : jumpFieldsAt here target n = some (imm, shift)) :
    n = shift ∧ here + jumpOffset imm shift = target := by
  rw [jumpFieldsAt, Option.ite_none_right_eq_some, Option.some_inj, Prod.mk.injEq] at h
  obtain ⟨hoff, rfl, rfl⟩ := h
  exact ⟨rfl, reaches_of_offset hoff⟩

/-- If a field reaches the target with a shift, that shift offers fields. -/
theorem jumpFieldsAt_of_reaches (h : here + jumpOffset imm shift = target) :
    jumpFieldsAt here target shift = some (fieldOf (imm.signExtend 32 <<< (shift + 2)) (shift + 2), shift) := by
  simp only [jumpFieldsAt, offset_of_reaches h, jumpOffset_eq, signExtend_fieldOf_shiftLeft, if_true]

/-- The fields found for a jump have a shift that can be encoded, and reach the target. -/
theorem reaches_of_jumpFields (h : jumpFields here target = some (imm, shift)) :
    shift < 16 ∧ here + jumpOffset imm shift = target := by
  obtain ⟨n, hn, hat⟩ := List.exists_of_findSome?_eq_some (jumpFields_eq here target ▸ h)
  obtain ⟨rfl, hreach⟩ := reaches_of_jumpFieldsAt hat
  exact ⟨List.mem_range.1 hn, hreach⟩

/-- A jump that some fields take to the target is found fields. -/
theorem jumpFields_ne_none (hs : shift < 16) (h : here + jumpOffset imm shift = target) :
    jumpFields here target ≠ none := by
  rw [jumpFields_eq]
  intro hnone
  have hat := List.findSome?_eq_none_iff.1 hnone shift (List.mem_range.2 hs)
  simp [jumpFieldsAt_of_reaches h] at hat

/-- Shift 0 is tried first, and its field is the only one that gives its offset. -/
theorem jumpFields_of_reaches_zero (h : here + jumpOffset imm 0 = target) :
    jumpFields here target = some (imm, 0) := by
  have hat := jumpFieldsAt_of_reaches h
  rw [fieldOf_signExtend_shiftLeft_of_le imm (by omega)] at hat
  rw [jumpFields_eq, List.range_succ_eq_map, List.findSome?_cons, hat]

end Where

/-! ## The obligations -/

/-- Settles O3: the encoded word fits a row that builds the instruction back, and no other row comes first. -/
theorem decodingAnEncodedInstructionGivesItBack : Obligations.DecodingAnEncodedInstructionGivesItBack :=
  fun _ _ hc hi => decode_encode hc hi

/-- Settles O4: the row that a decoded word fits fixes its opcode, ext and reserved bits, and cuts out the others. -/
theorem encodingADecodedWordGivesItBack : Obligations.EncodingADecodedWordGivesItBack :=
  fun _ _ _ h => encode_of_decode h

/-- Settles O5: the rows are disjoint, and the decoder finds the one that fits. -/
theorem wordDecodesByItsOneRowOrIsIllegal : Obligations.WordDecodesByItsOneRowOrIsIllegal := by
  intro s w hc hs hf
  refine ⟨rows_filter_fits_length hc w, fun r hr hw => ?_, fun h => ?_⟩
  · exact step_decoded hs hf (decode_of_row hc hr ((OpRow.fits_iff r w).2 hw))
  · exact step_decode_error hs hf (decode_of_no_row fun r hr => Bool.eq_false_iff.2 fun hw =>
      h r hr ((OpRow.fits_iff r w).1 hw))

/-- Where the rows with reserved bits stand in the opcode map, format by format: RRR, RR_i, R_R, R_I, __I, J, JR. -/
def placesWithReservedBits : List (Fin 37) :=
  [11, 12, 14, 15, 17, 19, 21, 23, 25, 27, 24, 26, 28, 2, 0, 1, 33, 34, 35, 36, 29, 30]

/-- Settles O6: the row of the opcode and ext fixes each of the reserved bits to 0. -/
theorem reservedBitSetIsNoInstruction : Obligations.ReservedBitSetIsNoInstruction := by
  intro c w hnop hhalt p hp
  have hplace : p ∈ placesWithReservedBits.map fun k => (opcodeTable[k].pattern, opcodeTable[k].reserved) := hp
  obtain ⟨k, -, rfl⟩ := List.mem_map.1 hplace
  exact decode_reservedBitsSet hnop hhalt (List.getElem_mem _)

/-- Settles O7: the 37 cells are the patterns of the rows. -/
theorem emptyCellOfTheOpcodeMapIsNoInstruction : Obligations.EmptyCellOfTheOpcodeMapIsNoInstruction := by
  intro c w hnop hhalt hcell
  refine decode_unassigned hnop hhalt fun r hr h => hcell ?_
  rw [h]
  exact List.mem_map_of_mem (f := OpRow.pattern) hr

/-- Settles O2: the number of each format, with the cell of the instruction. -/
theorem encodedFieldsStandAtTheirBits : Obligations.EncodedFieldsStandAtTheirBits := by
  intro c d a b imm imm12 amount shift hamount hshift
  exact ⟨
    encodeRRR_toNat .., encodeRRR_toNat .., encodeRRR_toNat .., encodeRRR_toNat .., encodeRRR_toNat ..,
    encodeRRR_toNat .., encodeRRR_toNat .., encodeRRR_toNat .., encodeRRR_toNat .., encodeRRR_toNat ..,
    encodeRRI_toNat .., encodeRRI_toNat .., encodeRRI_toNat .., encodeRRI_toNat .., encodeRRI_toNat ..,
    encodeRRi_toNat (h := hamount) .., encodeRRi_toNat (h := hamount) .., encodeRRi_toNat (h := hamount) ..,
    encodeR_R_toNat .., encodeR_I_toNat .., encodeR_I_toNat ..,
    encodeRRSI_toNat (h := hshift) .., encodeRRSI_toNat (h := hshift) .., encodeRRSI_toNat (h := hshift) ..,
    encodeRRSI_toNat (h := hshift) .., encodeRRSI_toNat (h := hshift) .., encodeRRSI_toNat (h := hshift) ..,
    encodeRRSI_toNat (h := hshift) .., encodeRRSI_toNat (h := hshift) ..,
    encodeBranch_toNat .., encodeBranch_toNat .., encodeBranch_toNat .., encodeBranch_toNat ..,
    encodeJ_toNat (h := hshift) .., encodeJR_toNat .., encodeJL_toNat (h := hshift) .., encodeRRI_toNat ..⟩

/-- Settles O8: an immediate shifted left is its integer times a power of two. -/
theorem immediatesAreScaledSignedIntegers : Obligations.ImmediatesAreScaledSignedIntegers := by
  refine ⟨fun imm => ⟨rfl, rfl, BitVec.le_toInt imm, Int.le_of_lt_add_one (BitVec.toInt_lt (x := imm))⟩,
    fun imm => signExtend_shiftLeft imm 2, fun imm shift => ?_, fun imm shift => ?_, fun s ra imm shift => ?_⟩
  · rw [jumpOffset_eq, signExtend_shiftLeft]
  · exact ⟨signExtend_shiftLeft imm shift, BitVec.le_toInt imm, Int.le_of_lt_add_one (BitVec.toInt_lt (x := imm))⟩
  · rw [State.ea_eq, displacement_eq, signExtend_shiftLeft]

/-- Settles O53: the field cut out of an offset gives that offset if any field does. -/
theorem whereResolvesToFieldsThatReachIt : Obligations.WhereResolvesToFieldsThatReachIt := by
  intro s target
  refine ⟨fun imm h hz => ⟨_, exec_beq imm s, ?_⟩, fun h imm hreach => branchFields_ne_none hreach h,
    fun imm shift h => ?_, fun h imm shift hs hreach => jumpFields_ne_none hs hreach h,
    fun imm hreach => jumpFields_of_reaches_zero hreach⟩
  · rw [if_pos hz]
    exact reaches_of_branchFields h
  · obtain ⟨hs, hreach⟩ := reaches_of_jumpFields h
    exact ⟨hs, ⟨_, exec_j imm shift s, hreach⟩, fun rd => ⟨_, exec_jl rd imm shift s, hreach⟩⟩

end Sys2Proof.Machine
end

section
/-! SUPPORT. Arithmetic (40_arithmetic.md): every word of a row of the opcode map decodes to what the row builds, and
an instruction that ends by writing a register and the flags changes nothing else; then the proofs of the statements of
that chapter. -/

namespace Sys2Proof.Machine

/-! ## Decoding by row, and what a completed instruction leaves -/

/-- Every word of a row of the opcode map, named by its place (11 to 16 are ADDU, ADD,
ADDI, SUBU, SUB, SUBI), decodes to the instruction that the row builds (R78). -/
theorem decodesTo_row (k : Fin 37) : DecodesTo opcodeTable[k].mask opcodeTable[k].pattern opcodeTable[k].build :=
  fun c _ hw => decode_of_opcodeTable c (List.getElem_mem _) ((OpRow.fits_iff _ _).2 hw)

/-- A register and the flags written, and on to the next instruction: the rest is unchanged. -/
theorem regResult_writeReg_setFlags_advance (s : State) (rd : RegIdx) (v : Word) (f : Flags) :
    RegResult s ((s.writeReg rd v).setFlags f).advance rd v f (s.pc + 4#32) := by
  refine ⟨by simp, fun r hr => ?_, rfl, rfl, fun _ => rfl, rfl, rfl, rfl⟩
  simp [State.writeReg_readReg_of_ne, hr]

theorem completes_regResult {i : Instr} {s : State} {rd : RegIdx} {v : Word} {f : Flags}
    (h : exec i s = .next ((s.writeReg rd v).setFlags f).advance) :
    Completes i s fun t => RegResult s t rd v f (s.pc + 4#32) :=
  ⟨_, h, regResult_writeReg_setFlags_advance s rd v f⟩

theorem unsignedAddFlags_eq (a b : Word) :
    unsignedAddFlags a b = ⟨decide (a + b = 0#32), false, decide (4294967296 ≤ a.toNat + b.toNat)⟩ := rfl

theorem unsignedSubFlags_eq (a b : Word) :
    unsignedSubFlags a b = ⟨decide (a - b = 0#32), false, decide (a.toNat < b.toNat)⟩ := rfl

/-! ## The obligations -/

/-- Settles O23: the sum's overflow by sign bits is that of the exact integer. -/
theorem addAndAddiAddWithSignedFlags : Obligations.AddAndAddiAddWithSignedFlags := by
  refine ⟨decodesTo_row 12, decodesTo_row 13, fun s rd ra rb imm => ?_⟩
  simp only [← signedAddFlags_eq_exactAddFlags]
  exact ⟨completes_regResult (exec_add ..), completes_regResult (exec_addi ..)⟩

/-- Settles O24: the difference's overflow by sign bits is that of the exact integer. -/
theorem subAndSubiSubtractWithSignedFlags : Obligations.SubAndSubiSubtractWithSignedFlags := by
  refine ⟨decodesTo_row 15, decodesTo_row 16, fun s rd ra rb imm => ?_⟩
  simp only [← signedSubFlags_eq_exactSubFlags]
  exact ⟨completes_regResult (exec_sub ..), completes_regResult (exec_subi ..)⟩

/-- Settles O25: the results of ADD and SUB, with the carry and the borrow as V. -/
theorem adduAndSubuComputeWithUnsignedFlags : Obligations.AdduAndSubuComputeWithUnsignedFlags := by
  refine ⟨decodesTo_row 11, decodesTo_row 14, fun s rd ra rb => ?_⟩
  simp only [← unsignedAddFlags_eq, ← unsignedSubFlags_eq]
  exact ⟨completes_regResult (exec_addu ..), completes_regResult (exec_subu ..)⟩

end Sys2Proof.Machine
end

section
/-! SUPPORT. Logic (41_logic.md): an instruction that ends by writing a register alone keeps the flags too, and the bits
of a sign-extended immediate; then the proofs of the statements of that chapter. -/

namespace Sys2Proof.Machine

/-! ## Instructions as equations of `exec`

The three operations, each of two registers and of a register and an immediate. -/

section LogicEquations

variable (rd ra rb : RegIdx) (imm : BitVec 16) (s : State)

@[simp] theorem exec_and : exec (.and rd ra rb) s =
    .next (s.writeReg rd (s.readReg ra &&& s.readReg rb)).advance := rfl

@[simp] theorem exec_or : exec (.or rd ra rb) s =
    .next (s.writeReg rd (s.readReg ra ||| s.readReg rb)).advance := rfl

@[simp] theorem exec_xor : exec (.xor rd ra rb) s =
    .next (s.writeReg rd (s.readReg ra ^^^ s.readReg rb)).advance := rfl

@[simp] theorem exec_andi : exec (.andi rd ra imm) s =
    .next (s.writeReg rd (s.readReg ra &&& imm.signExtend 32)).advance := rfl

@[simp] theorem exec_ori : exec (.ori rd ra imm) s =
    .next (s.writeReg rd (s.readReg ra ||| imm.signExtend 32)).advance := rfl

@[simp] theorem exec_xori : exec (.xori rd ra imm) s =
    .next (s.writeReg rd (s.readReg ra ^^^ imm.signExtend 32)).advance := rfl

end LogicEquations

/-! ## A register written, and the bits of an immediate -/

/-- A register written, and on to the next instruction: the flags and the rest are unchanged. -/
theorem regResult_writeReg_advance (s : State) (rd : RegIdx) (v : Word) :
    RegResult s (s.writeReg rd v).advance rd v s.flags (s.pc + 4#32) :=
  regResult_writeReg_setFlags_advance s rd v s.flags

/-- An instruction that writes one register completes with whatever is known of the value. -/
theorem completes_writeReg {i : Instr} {s : State} {rd : RegIdx} {v : Word} {P : Word → Prop}
    (h : exec i s = .next (s.writeReg rd v).advance) (hv : P v) :
    Completes i s fun t => ∃ v : Word, RegResult s t rd v s.flags (s.pc + 4#32) ∧ P v :=
  ⟨_, h, v, regResult_writeReg_advance s rd v, hv⟩

/-- Above its own bits a sign-extended immediate repeats bit 15. -/
theorem getLsbD_signExtend_imm (imm : BitVec 16) {k : Nat} (hk : k < 32) :
    (imm.signExtend 32).getLsbD k = imm.getLsbD (if k < 16 then k else 15) := by
  rw [BitVec.getLsbD_signExtend, BitVec.msb_eq_getLsbD_last]
  split <;> simp [hk]

/-- The sign-extended 0xFFFF is all ones, and the exclusive or with it is the complement (R117). -/
theorem exec_notPseudo (rd ra : RegIdx) (s : State) :
    exec (notPseudo rd ra) s = .next (s.writeReg rd (~~~s.readReg ra)).advance := by
  have hones : (0xFFFF#16).signExtend 32 = BitVec.allOnes 32 := by decide
  rw [notPseudo, exec_xori, hones, BitVec.xor_allOnes]

/-- The word of XORI is read back on every machine: its row is one of the opcode map, whatever NOP and HALT are. -/
theorem decode_encode_xori (c : Config) (rd ra : RegIdx) (imm : BitVec 16) :
    decode c (encode c (.xori rd ra imm)) = .ok (.xori rd ra imm) := by
  rw [decodesTo_row 22 c _ (encodeRRI_masked ..)]
  show Except.ok (Instr.xori (fieldRd _) (fieldRa _) (fieldImm16 _)) = _
  simp [encode]

/-! ## The obligations -/

/-- Settles O26: a bit of the and, or, exclusive or of two words is that of their bits. -/
theorem logicRegisterFormsWorkBitByBit : Obligations.LogicRegisterFormsWorkBitByBit := by
  refine ⟨decodesTo_row 17, decodesTo_row 19, decodesTo_row 21, fun s rd ra rb => ⟨?and, ?or, ?xor⟩⟩
  case and => exact completes_writeReg (exec_and ..) fun _ => BitVec.getLsbD_and
  case or => exact completes_writeReg (exec_or ..) fun _ => BitVec.getLsbD_or
  case xor => exact completes_writeReg (exec_xor ..) fun _ => BitVec.getLsbD_xor

/-- Settles O27: as for two registers, with the bits of the sign-extended immediate. -/
theorem logicImmediateFormsWorkBitByBit : Obligations.LogicImmediateFormsWorkBitByBit := by
  refine ⟨decodesTo_row 18, decodesTo_row 20, decodesTo_row 22, fun s rd ra imm => ⟨?andi, ?ori, ?xori⟩⟩
  case andi =>
    exact completes_writeReg (exec_andi ..) fun k hk => by rw [BitVec.getLsbD_and, getLsbD_signExtend_imm imm hk]
  case ori =>
    exact completes_writeReg (exec_ori ..) fun k hk => by rw [BitVec.getLsbD_or, getLsbD_signExtend_imm imm hk]
  case xori =>
    exact completes_writeReg (exec_xori ..) fun k hk => by rw [BitVec.getLsbD_xor, getLsbD_signExtend_imm imm hk]

/-- Settles O28: the word has XORI's cell and Imm 0xFFFF, and the result is the complement. -/
theorem notIsXoriWithAllOnes : Obligations.NotIsXoriWithAllOnes := by
  intro c s rd ra
  refine ⟨decode_encode_xori c rd ra _, ?_, completes_writeReg (exec_notPseudo ..) fun k hk => by simp [hk]⟩
  have hword : (encode c (notPseudo rd ra)).toNat = 0x58010000 + rd.val * 2 ^ 22 + ra.val * 2 ^ 18 + 0xFFFF :=
    encodeRRI_toNat ..
  omega

end Sys2Proof.Machine
end

section
/-! SUPPORT. Shifts (42_shift.md): the six instructions as equations of `exec`, and the right shifts of a word by bits
and as division; then the proofs of the statements of that chapter. -/

namespace Sys2Proof.Machine

/-! ## Instructions as equations of `exec`

The three shifts, each by the low five bits of a register and by a constant. -/

section ShiftEquations

variable (rd ra rb : RegIdx) (n : Nat) (s : State)

@[simp] theorem exec_sl : exec (.sl rd ra rb) s =
    .next (s.writeReg rd (s.readReg ra <<< ((s.readReg rb).toNat % 32))).advance := rfl

@[simp] theorem exec_sr : exec (.sr rd ra rb) s =
    .next (s.writeReg rd (s.readReg ra >>> ((s.readReg rb).toNat % 32))).advance := rfl

@[simp] theorem exec_sra : exec (.sra rd ra rb) s =
    .next (s.writeReg rd ((s.readReg ra).sshiftRight ((s.readReg rb).toNat % 32))).advance := rfl

@[simp] theorem exec_sli : exec (.sli rd ra n) s =
    .next (s.writeReg rd (s.readReg ra <<< n)).advance := rfl

@[simp] theorem exec_sri : exec (.sri rd ra n) s =
    .next (s.writeReg rd (s.readReg ra >>> n)).advance := rfl

@[simp] theorem exec_srai : exec (.srai rd ra n) s =
    .next (s.writeReg rd ((s.readReg ra).sshiftRight n)).advance := rfl

end ShiftEquations

/-- SR and SRI by the same amount do the same (R123, R124). -/
theorem exec_logicalRightShift {i : Instr} {s : State} {rd ra rb : RegIdx} {n : Nat}
    (h : (i = .sr rd ra rb ∧ (s.readReg rb).toNat % 32 = n) ∨ i = .sri rd ra n) :
    exec i s = .next (s.writeReg rd (s.readReg ra >>> n)).advance := by
  obtain ⟨rfl, rfl⟩ | rfl := h
  · exact exec_sr ..
  · exact exec_sri ..

/-- SRA and SRAI by the same amount do the same (R125, R126). -/
theorem exec_arithmeticRightShift {i : Instr} {s : State} {rd ra rb : RegIdx} {n : Nat}
    (h : (i = .sra rd ra rb ∧ (s.readReg rb).toNat % 32 = n) ∨ i = .srai rd ra n) :
    exec i s = .next (s.writeReg rd ((s.readReg ra).sshiftRight n)).advance := by
  obtain ⟨rfl, rfl⟩ | rfl := h
  · exact exec_sra ..
  · exact exec_srai ..

/-! ## The shifts of a word as integers and by bits -/

section ShiftedWords

variable (x : Word) (n : Nat)

/-- SL multiplies (R121). -/
theorem toNat_shiftLeft_eq_mul : (x <<< n).toNat = x.toNat * 2 ^ n % 2 ^ 32 := by
  rw [BitVec.toNat_shiftLeft, Nat.shiftLeft_eq]

/-- SR divides the unsigned value (R123). -/
theorem toNat_ushiftRight_eq_div : (x >>> n).toNat = x.toNat / 2 ^ n := by
  rw [BitVec.toNat_ushiftRight, Nat.shiftRight_eq_div_pow]

/-- SRA divides the signed value, rounding down: the divisor is positive (R125). -/
theorem toInt_sshiftRight_eq_div : (x.sshiftRight n).toInt = x.toInt / 2 ^ n := by
  rw [BitVec.toInt_sshiftRight, Int.shiftRight_eq_div_pow, Nat.cast_pow, Nat.cast_ofNat]

/-- SR brings in zeros (R127). -/
theorem getLsbD_ushiftRight_eq_ite (k : Nat) :
    (x >>> n).getLsbD k = if k + n < 32 then x.getLsbD (k + n) else false := by
  rw [BitVec.getLsbD_ushiftRight, Nat.add_comm]
  split
  · rfl
  · exact BitVec.getLsbD_of_ge _ _ (by omega)

/-- SRA brings in copies of bit 31 (R127). -/
theorem getLsbD_sshiftRight_eq_ite {k : Nat} (hk : k < 32) :
    (x.sshiftRight n).getLsbD k = if k + n < 32 then x.getLsbD (k + n) else x.getLsbD 31 := by
  rw [BitVec.getLsbD_sshiftRight, Nat.add_comm, BitVec.msb_eq_getLsbD_last]
  simp [hk]

end ShiftedWords

/-! ## The obligations -/

/-- Settles O29: each shift of a word is the product or quotient by the power of two. -/
theorem registerShiftsUseTheLowFiveBits : Obligations.RegisterShiftsUseTheLowFiveBits := by
  refine ⟨decodesTo_row 23, decodesTo_row 25, decodesTo_row 27, fun s rd ra rb n hn => ?_⟩
  subst hn
  refine ⟨?sl, ?sr, ?sra⟩
  case sl => exact completes_writeReg (exec_sl ..) (toNat_shiftLeft_eq_mul ..)
  case sr => exact completes_writeReg (exec_sr ..) (toNat_ushiftRight_eq_div ..)
  case sra => exact completes_writeReg (exec_sra ..) (toInt_sshiftRight_eq_div ..)

/-- Settles O30: as for an amount in a register; no shift needs its bound, which is that of the field. -/
theorem immediateShiftsUseTheirField : Obligations.ImmediateShiftsUseTheirField := by
  refine ⟨decodesTo_row 24, decodesTo_row 26, decodesTo_row 28, fun s rd ra n _ => ⟨?sli, ?sri, ?srai⟩⟩
  case sli => exact completes_writeReg (exec_sli ..) (toNat_shiftLeft_eq_mul ..)
  case sri => exact completes_writeReg (exec_sri ..) (toNat_ushiftRight_eq_div ..)
  case srai => exact completes_writeReg (exec_srai ..) (toInt_sshiftRight_eq_div ..)

/-- Settles O31: both forms write the same shifted word, whose bits and quotient are known; the division that rounds
toward minus infinity is the Euclidean one for a positive divisor. -/
theorem rightShiftsFillWithZeroOrTheSign : Obligations.RightShiftsFillWithZeroOrTheSign := by
  refine fun s rd ra rb n _ => ⟨fun i hi => ?logical, fun i hi => ?arithmetic⟩
  case logical =>
    refine ⟨_, exec_logicalRightShift hi, fun k _ => ?_⟩
    rw [State.advance_readReg, State.writeReg_readReg_self, getLsbD_ushiftRight_eq_ite]
  case arithmetic =>
    refine ⟨_, exec_arithmeticRightShift hi, fun k hk => ?bits, ?quotient⟩ <;>
      rw [State.advance_readReg, State.writeReg_readReg_self]
    case bits => exact getLsbD_sshiftRight_eq_ite _ _ hk
    case quotient => rw [toInt_sshiftRight_eq_div, Int.fdiv_eq_ediv_of_nonneg _ (by positivity)]

end Sys2Proof.Machine
end

section
/-! SUPPORT. Loads and stores (43_memory_ops.md): the checks of each width by numbers, what a completed load and a
completed store leave, and that a load or store faults exactly as the check of its access does; then the proofs of the
statements of that chapter. -/

namespace Sys2Proof.Machine

/-! ## The check of each width -/

section CheckWidths

variable {s : State} {a : Word}

theorem checkAccess_word (h : a.toNat % 4 = 0)
    (hm : ∀ k, k < 4 → mapped s.config (a + BitVec.ofNat 32 k) = true) : checkAccess s a .word = .ok () :=
  checkAccess_mapped h ((mappedAccess_iff ..).2 hm)

theorem checkAccess_half (h : a.toNat % 2 = 0) (hm : mapped s.config a = true)
    (hm' : mapped s.config (a + 1#32) = true) : checkAccess s a .half = .ok () :=
  checkAccess_mapped h (by simp [mappedAccess_half, hm, hm'])

/-- Every address is a multiple of 1, so a byte access only has to be in `MEM_MAP` (R36). -/
theorem checkAccess_byte (hm : mapped s.config a = true) : checkAccess s a .byte = .ok () :=
  checkAccess_mapped (Nat.mod_one _) (by simpa using hm)

end CheckWidths

/-! ## What a completed load and a completed store leave -/

/-- A load whose read succeeds writes its register and changes nothing else (R139). -/
theorem completes_load {i : Instr} {s : State} {rv : RegIdx} {v : Word} (h : exec i s = endLoad s rv (.ok v)) :
    Completes i s fun t => RegResult s t rv v s.flags (s.pc + 4#32) :=
  ⟨_, h, regResult_writeReg_advance s rv v⟩

/-- A zero-extended value has zeros before it (R133, R135). -/
theorem zeroExtend_eq_zero_append {n : Nat} (x : BitVec n) (m : Nat) : x.zeroExtend (m + n) = 0#m ++ x := by
  rw [BitVec.zeroExtend, BitVec.setWidth_eq_append (by omega)]
  simp

/-- Bytes stored, and on to the next instruction: every other byte and the rest are unchanged. -/
theorem storeResult_putBytes_advance (s : State) (a v : Word) (w : Width) :
    StoreResult s (s.putBytes a (storedBytes v w)).advance a (storedBytes v w) (s.pc + 4#32) :=
  ⟨State.putBytes_holds s a v w, fun _ => State.putBytes_byteAt_of_outside s a _ (storedBytes_length_le v w),
    State.putBytes_readReg s a _, State.putBytes_flags s a _, by simp [State.nextPc_eq], by simp [SameMachine]⟩

/-- A store that passes its check writes its bytes and changes nothing else (R139). -/
theorem IsStore.completes_storeResult {i : Instr} {w : Width} {rv ra : RegIdx} {imm : BitVec 12} {shift : Nat}
    {s : State} (hi : IsStore i w rv ra imm shift) (hok : checkAccess s (s.ea ra imm shift) w = .ok ()) :
    Completes i s fun t =>
      StoreResult s t (s.ea ra imm shift) (storedBytes (s.readReg rv) w) (s.pc + 4#32) :=
  ⟨_, hi.exec_of_ok hok, storeResult_putBytes_advance s _ _ w⟩

/-! ## A load or store faults exactly as the check of its access does -/

section Access

variable {i : Instr} {w : Width} {ra : RegIdx} {imm : BitVec 12} {shift : Nat} {s : State}
  (ha : i.access = some (w, ra, imm, shift))
include ha

/-- A load or store writes no flags, transfers no control and is not HALT (R19, R139). -/
theorem kind_of_access : i.writesFlags = false ∧ i.transfersControl = false ∧ i ≠ .halt := by
  cases i with
  | ldbu | ldb | ldhwu | ldhw | ldw | stb | sthw | stw => exact ⟨rfl, rfl, Instr.noConfusion⟩
  | _ => cases ha

/-- The fault of the check is the outcome (R139). -/
theorem exec_of_checkAccess_error {f : Fault} (h : checkAccess s (s.ea ra imm shift) w = .error f) :
    exec i s = .fault f := by
  cases i with
  | ldbu => cases ha; rw [exec_ldbu, memRead8_of_error h]; rfl
  | ldb => cases ha; rw [exec_ldb, memRead8_of_error h]; rfl
  | ldhwu => cases ha; rw [exec_ldhwu, memRead16_of_error h]; rfl
  | ldhw => cases ha; rw [exec_ldhw, memRead16_of_error h]; rfl
  | ldw => cases ha; rw [exec_ldw, memRead32_of_error h]; rfl
  | stb | sthw | stw => cases ha; exact congrArg endStore (memWrite_of_error h _)
  | _ => cases ha

/-- A load or store has no other fault than that of the check, and is not refused. -/
theorem exec_of_checkAccess_ok (h : checkAccess s (s.ea ra imm shift) w = .ok ()) : ∃ t, exec i s = .next t := by
  cases he : exec i s with
  | next t => exact ⟨t, rfl⟩
  | fault f =>
    obtain ⟨_, _, _, _, ha', hf⟩ := exec_fault he
    cases ha.symm.trans ha'
    cases h.symm.trans hf
  | refused r => exact absurd he (exec_ne_refused i s r)

end Access

/-! ## The obligations -/

/-- Settles O34: a read that passes its check gives the bytes side by side, which the load extends. -/
theorem loadsReadTheirBytesIntoRv : Obligations.LoadsReadTheirBytesIntoRv := by
  refine ⟨decodesTo_row 7, decodesTo_row 6, decodesTo_row 5, decodesTo_row 4, decodesTo_row 3,
    fun s rv ra imm shift a hea => ?_⟩
  subst hea
  refine ⟨fun ha hm => ?word, fun ha hm hm' => ?half, fun hm => ?byte⟩
  case word => exact completes_load (by rw [exec_ldw, memRead32_of_ok (checkAccess_word ha hm)]; rfl)
  case half =>
    have hread := memRead16_of_ok (checkAccess_half ha hm hm')
    rw [← zeroExtend_eq_zero_append]
    exact ⟨completes_load (by rw [exec_ldhw, hread]; rfl), completes_load (by rw [exec_ldhwu, hread]; rfl)⟩
  case byte =>
    have hread := memRead8_of_ok (checkAccess_byte hm)
    rw [← zeroExtend_eq_zero_append]
    exact ⟨completes_load (by rw [exec_ldb, hread]; rfl), completes_load (by rw [exec_ldbu, hread]; rfl)⟩

/-- Settles O35: a store that passes its check puts the low bytes of its register at its address. -/
theorem storesWriteTheirBytesAndNothingElse : Obligations.StoresWriteTheirBytesAndNothingElse := by
  refine ⟨decodesTo_row 10, decodesTo_row 9, decodesTo_row 8, fun s rv ra imm shift a hea => ?_⟩
  subst hea
  refine ⟨fun ha hm => ?word, fun ha hm hm' => ?half, fun hm => ?byte⟩
  case word =>
    have hi : IsStore (.stw rv ra imm shift) .word rv ra imm shift := .inl ⟨rfl, rfl⟩
    exact hi.completes_storeResult (checkAccess_word ha hm)
  case half =>
    have hi : IsStore (.sthw rv ra imm shift) .half rv ra imm shift := .inr (.inl ⟨rfl, rfl⟩)
    exact hi.completes_storeResult (checkAccess_half ha hm hm')
  case byte =>
    have hi : IsStore (.stb rv ra imm shift) .byte rv ra imm shift := .inr (.inr ⟨rfl, rfl⟩)
    exact hi.completes_storeResult (checkAccess_byte hm)

/-- Settles O36: the outcome is that of the check of the access, whose address is made of the state before. -/
theorem loadsAndStoresFaultByAlignmentThenMap : Obligations.LoadsAndStoresFaultByAlignmentThenMap := by
  rintro s i w ra imm shift _ ha rfl
  rw [← State.ea_eq]
  refine ⟨fun h => ?misaligned, fun h hm => ?unmapped, fun h hm => ?completes⟩
  case misaligned => exact exec_of_checkAccess_error ha (checkAccess_misaligned h)
  case unmapped =>
    exact exec_of_checkAccess_error ha (checkAccess_unmapped h ((mappedAccess_eq_false_iff ..).2 hm))
  case completes =>
    obtain ⟨t, ht⟩ := exec_of_checkAccess_ok ha (checkAccess_mapped h ((mappedAccess_iff ..).2 hm))
    obtain ⟨hflags, hseq, hhalt⟩ := kind_of_access ha
    exact ⟨t, ht, exec_flags_of_not_writesFlags hflags ht, exec_pc_of_sequential hseq hhalt ht,
      fun _ => exec_byteAt_of_outside ha ht⟩

end Sys2Proof.Machine
end

section
/-! SUPPORT. Move (44_move.md): the three instructions as equations of `exec`, and the halves of a word after MOVIL and
MOVIH as numbers and as bits; then the proofs of the statements of that chapter. -/

namespace Sys2Proof.Machine

/-! ## Instructions as equations of `exec` -/

section MoveEquations

variable (rd rb : RegIdx) (imm : BitVec 16) (s : State)

@[simp] theorem exec_mov : exec (.mov rd rb) s = .next (s.writeReg rd (s.readReg rb)).advance := rfl

@[simp] theorem exec_movil : exec (.movil rd imm) s =
    .next (s.writeReg rd (withLowHalf (s.readReg rd) imm)).advance := rfl

@[simp] theorem exec_movih : exec (.movih rd imm) s =
    .next (s.writeReg rd (withHighHalf (s.readReg rd) imm)).advance := rfl

end MoveEquations

/-! ## One half of a word replaced -/

section Halves

variable (x K : Word) (imm : BitVec 16)

/-- MOVIL keeps the quotient by 2^16 (R146). -/
theorem withLowHalf_toNat : (withLowHalf x imm).toNat = x.toNat / 2 ^ 16 * 2 ^ 16 + imm.toNat := by
  have hhigh : (x.extractLsb' 16 16).toNat = x.toNat / 2 ^ 16 := by
    rw [BitVec.extractLsb'_toNat, Nat.shiftRight_eq_div_pow]
    omega
  rw [withLowHalf, append_toNat, hhigh]

/-- MOVIH keeps the remainder by 2^16 (R147). -/
theorem withHighHalf_toNat : (withHighHalf x imm).toNat = imm.toNat * 2 ^ 16 + x.toNat % 2 ^ 16 := by
  rw [withHighHalf, append_toNat, BitVec.extractLsb'_toNat, Nat.shiftRight_zero]

/-- The two halves side by side are the word. -/
theorem append_halves : K.extractLsb' 16 16 ++ K.extractLsb' 0 16 = K := by
  rw [BitVec.extractLsb'_append_extractLsb'_eq_extractLsb' (by rfl)]
  exact BitVec.extractLsb'_eq_self

/-- MOVIL, then MOVIH: MOVIH keeps the low half that MOVIL wrote (R148). -/
theorem withHighHalf_withLowHalf :
    withHighHalf (withLowHalf x (K.extractLsb' 0 16)) (K.extractLsb' 16 16) = K := by
  have hkept : (withLowHalf x (K.extractLsb' 0 16)).extractLsb' 0 16 = K.extractLsb' 0 16 :=
    BitVec.extractLsb'_append_eq_right
  rw [withHighHalf, hkept, append_halves]

/-- MOVIH, then MOVIL: MOVIL keeps the high half that MOVIH wrote (R148). -/
theorem withLowHalf_withHighHalf :
    withLowHalf (withHighHalf x (K.extractLsb' 16 16)) (K.extractLsb' 0 16) = K := by
  have hkept : (withHighHalf x (K.extractLsb' 16 16)).extractLsb' 16 16 = K.extractLsb' 16 16 :=
    BitVec.extractLsb'_append_eq_left
  rw [withLowHalf, hkept, append_halves]

end Halves

/-! ## The obligations -/

/-- Settles O32: MOVIL and MOVIH put the new half beside the old one, which is a quotient or a remainder by 2^16. -/
theorem movesCopyOrReplaceOneHalf : Obligations.MovesCopyOrReplaceOneHalf := by
  refine ⟨decodesTo_row 2, decodesTo_row 0, decodesTo_row 1, fun s rd rb imm => ⟨?mov, ?movil, ?movih⟩⟩
  case mov => exact ⟨_, exec_mov .., regResult_writeReg_advance ..⟩
  case movil => exact completes_writeReg (exec_movil ..) (withLowHalf_toNat ..)
  case movih => exact completes_writeReg (exec_movih ..) (withHighHalf_toNat ..)

/-- Settles O33: each instruction keeps the half that the other one writes, so both halves are those of K. -/
theorem movePairLoadsAnyConstantInEitherOrder : Obligations.MovePairLoadsAnyConstantInEitherOrder := by
  refine fun s rd K => ⟨⟨_, exec_movil .., _, exec_movih .., ?lowFirst⟩,
    ⟨_, exec_movih .., _, exec_movil .., ?highFirst⟩⟩ <;>
    simp only [State.advance_readReg, State.writeReg_readReg_self]
  case lowFirst => exact withHighHalf_withLowHalf ..
  case highFirst => exact withLowHalf_withHighHalf ..

end Sys2Proof.Machine
end

section
/-! SUPPORT. Branches and jumps (45_branch_jump.md): a pc written, alone or with a link register, changes nothing else,
and the two offsets are integers scaled; then the proofs of the statements of that chapter. -/

namespace Sys2Proof.Machine

/-! ## What a completed branch or jump leaves -/

/-- A branch, or a jump that does not link, writes the pc and nothing else (R150). -/
theorem completes_pcResult {i : Instr} {s : State} {target next : Word} (h : exec i s = .next (s.setPc target))
    (hnext : target = next) : Completes i s fun t => PcResult s t next :=
  ⟨_, h, fun _ => rfl, rfl, hnext, fun _ => rfl, rfl, rfl, rfl⟩

/-- A jump that links writes the pc and the link register and nothing else (R157, R158). -/
theorem completes_linkResult {i : Instr} {s : State} {rd : RegIdx} {target next : Word}
    (h : exec i s = .next ((s.writeReg rd s.nextPc).setPc target)) (hnext : target = next) :
    Completes i s fun t => RegResult s t rd (s.pc + 4#32) s.flags next :=
  ⟨_, h, State.writeReg_readReg_self s rd s.nextPc, fun _ => State.writeReg_readReg_of_ne s s.nextPc, rfl, hnext,
    fun _ => rfl, rfl, rfl, rfl⟩

/-! ## The offsets as integers -/

/-- A base plus the offset of a branch or a JLR, in words (R75, R76). -/
theorem add_wordOffset (base : Word) (imm : BitVec 16) :
    base + wordOffset imm = base + BitVec.ofInt 32 (imm.toInt * 4) :=
  congrArg (base + ·) (signExtend_shiftLeft imm 2)

/-- A base plus the offset of a J or a JL, in words times 2^shift (R76). -/
theorem add_jumpOffset (base : Word) (imm : BitVec 16) (shift : Nat) :
    base + jumpOffset imm shift = base + BitVec.ofInt 32 (imm.toInt * 2 ^ (shift + 2)) := by
  rw [jumpOffset_eq, signExtend_shiftLeft]

/-! ## The obligations -/

/-- Settles O37: a branch writes the pc alone, with its target or with the address of the next instruction. -/
theorem conditionalBranchesGoToTheirTargetIffTaken : Obligations.ConditionalBranchesGoToTheirTargetIffTaken := by
  refine ⟨decodesTo_row 33, decodesTo_row 36, decodesTo_row 35, decodesTo_row 34, fun s imm target htarget => ?_⟩
  rw [← add_wordOffset] at htarget
  subst htarget
  exact ⟨completes_pcResult (exec_beq ..) rfl, completes_pcResult (exec_bne ..) rfl,
    completes_pcResult (exec_bge ..) rfl, completes_pcResult (exec_blt ..) rfl⟩

/-- Settles O38: J and JR write the pc alone; J's offset is scaled and JR's register is not. -/
theorem relativeJumpsAddTheirDisplacement : Obligations.RelativeJumpsAddTheirDisplacement :=
  ⟨decodesTo_row 29, decodesTo_row 30, fun _ _ _ _ =>
    ⟨completes_pcResult (exec_j ..) (add_jumpOffset ..), completes_pcResult (exec_jr ..) rfl⟩⟩

/-- Settles O39: the target is made of the state before the link is written, so Rd may be Ra. -/
theorem linkingJumpsSaveTheReturnAddress : Obligations.LinkingJumpsSaveTheReturnAddress :=
  ⟨decodesTo_row 31, decodesTo_row 32, fun _ _ _ _ _ =>
    ⟨completes_linkResult (exec_jl ..) (add_jumpOffset ..), completes_linkResult (exec_jlr ..) (add_wordOffset ..)⟩⟩

/-- Settles O40: JL leaves pc + 4 in the link register, and JLR with Imm 0 goes to the register's own value. -/
theorem returnThroughTheLinkRegisterComesBack : Obligations.ReturnThroughTheLinkRegisterComesBack := by
  intro s rlink rt imm shift
  obtain ⟨t, ht, hlink, -⟩ := completes_linkResult (exec_jl rlink imm shift s) rfl
  refine ⟨t, ht, fun u hu => ?_⟩
  have htarget : u.readReg rlink + wordOffset 0#16 = s.pc + 4#32 := by
    rw [hu, hlink, show wordOffset 0#16 = 0#32 by decide, BitVec.add_zero]
  obtain ⟨v, hv, hreturn, -, -, hpc, -⟩ := completes_linkResult (exec_jlr rt rlink 0#16 u) htarget
  exact ⟨v, hv, hpc, hreturn⟩

end Sys2Proof.Machine
end

section
/-! SUPPORT. NOP (46_misc.md): the one word that decodes to it, as to any instruction; then the proof of the statement
of that chapter. -/

namespace Sys2Proof.Machine

/-- On a machine with well-formed parameters a well-formed instruction has one word, its encoding (R66, R78). -/
theorem decode_eq_ok_iff {c : Config} {i : Instr} (hc : c.wf = true) (hi : i.wf = true) (w : Word) :
    decode c w = .ok i ↔ w = encode c i := by
  constructor
  · intro h
    obtain ⟨-, hw⟩ := encode_of_decode h
    exact hw.symm
  · rintro rfl
    exact decode_encode hc hi

/-- Settles O43: the encoding of NOP is ENC_NOP, and NOP writes the pc alone. -/
theorem nopAdvancesThePcAndNothingElse : Obligations.NopAdvancesThePcAndNothingElse :=
  ⟨fun _ w hc => decode_eq_ok_iff (i := .nop) hc rfl w, rfl, fun s => completes_pcResult (exec_nop s) s.nextPc_eq⟩

end Sys2Proof.Machine
end

section
/-! SUPPORT. Exceptions (60_exceptions.md): everything a step can answer, what the fault of an access, of a fetch and of
a step says about the state, and how a run goes on after a fault; then the proofs of the statements of that chapter. -/

namespace Sys2Proof.Machine

/-! ## What a fault says about the state -/

theorem aligned_eq_false_iff (a : Word) (w : Width) : aligned a w = false ↔ a.toNat % w.bytes ≠ 0 := by
  rw [← Bool.not_eq_true, aligned_iff]

/-- The check of an access fails on a misaligned address, or on a byte outside `MEM_MAP` (R36, R40). -/
theorem checkAccess_fault {s : State} {a : Word} {w : Width} {f : Fault} (h : checkAccess s a w = .error f) :
    (f = .misalignedAccess a ∧ a.toNat % w.bytes ≠ 0) ∨
      (f = .accessFault a ∧ ∃ k, k < w.bytes ∧ mapped s.config (a + BitVec.ofNat 32 k) = false) := by
  rcases (checkAccess_error_iff ..).1 h with ⟨ha, rfl⟩ | ⟨-, hm, rfl⟩
  · exact .inl ⟨rfl, (aligned_eq_false_iff ..).1 ha⟩
  · exact .inr ⟨rfl, (mappedAccess_eq_false_iff ..).1 hm⟩

/-- A fetch fails on a misaligned pc, or on a byte of the word outside `MEM_MAP` (R37, R40). -/
theorem fetch_fault {s : State} {f : Fault} (h : fetch s = .error f) :
    (f = .misalignedFetch s.pc ∧ s.pc.toNat % 4 ≠ 0) ∨
      (f = .accessFault s.pc ∧ ∃ k, k < 4 ∧ mapped s.config (s.pc + BitVec.ofNat 32 k) = false) := by
  cases ha : aligned s.pc .word with
  | false =>
    cases (fetch_misaligned ha).symm.trans h
    exact .inl ⟨rfl, (aligned_eq_false_iff ..).1 ha⟩
  | true =>
    cases hm : mappedAccess s.config s.pc .word with
    | false =>
      cases (fetch_unmapped ha hm).symm.trans h
      exact .inr ⟨rfl, (mappedAccess_eq_false_iff ..).1 hm⟩
    | true => cases (fetch_mapped ha hm).symm.trans h

/-- A word that is no instruction fits no row of the machine (R78). -/
theorem no_row_of_decode_error {c : Config} {w : Word} {e : Reject} (h : decode c w = .error e) :
    ∀ r ∈ c.rows, r.fits w = false := by
  unfold decode at h
  split at h
  · cases h
  · rename_i hnone
    simpa [List.find?_eq_none] using hnone

/-- Each byte access is aligned, so an access that is not is of 2 or 4 bytes (R36). -/
theorem ne_byte_of_misaligned {a : Word} {w : Width} (h : a.toNat % w.bytes ≠ 0) : w ≠ .byte := by
  rintro rfl
  exact h (Nat.mod_one _)

/-! ## What a step can answer -/

/-- A step is the stutter of a halted machine, the fault of the fetch, IllegalInstruction, or the outcome of the
instruction it decoded (R28). -/
theorem step_cases (s : State) :
    (s.halted = true ∧ step s = .next s) ∨
      s.halted = false ∧
        ((∃ f, fetch s = .error f ∧ step s = .fault f) ∨
          (∃ w e, fetch s = .ok w ∧ decode s.config w = .error e ∧ step s = .fault (.illegalInstruction s.pc w)) ∨
          ∃ w i, fetch s = .ok w ∧ decode s.config w = .ok i ∧ step s = exec i s) := by
  cases hh : s.halted with
  | true => exact .inl ⟨rfl, step_halted hh⟩
  | false =>
    refine .inr ⟨rfl, ?_⟩
    cases hf : fetch s with
    | error f => exact .inl ⟨f, rfl, step_fetch_error hh hf⟩
    | ok w =>
      cases hd : decode s.config w with
      | error e => exact .inr (.inl ⟨w, e, rfl, hd, step_decode_error hh hf hd⟩)
      | ok i => exact .inr (.inr ⟨w, i, rfl, hd, step_decoded hh hf hd⟩)

/-- A step that faults is of a running machine, and the fault is that of the fetch, IllegalInstruction, or that of the
check of a load's or store's access (R171). -/
theorem step_fault {s : State} {f : Fault} (h : step s = .fault f) :
    s.halted = false ∧
      (fetch s = .error f ∨
        (∃ w e, fetch s = .ok w ∧ decode s.config w = .error e ∧ f = .illegalInstruction s.pc w) ∨
        ∃ w i n ra imm shift, fetch s = .ok w ∧ decode s.config w = .ok i ∧ i.access = some (n, ra, imm, shift) ∧
          checkAccess s (s.ea ra imm shift) n = .error f) := by
  rcases step_cases s with ⟨-, hs⟩ | ⟨hh, ⟨g, hf, hs⟩ | ⟨w, e, hf, hd, hs⟩ | ⟨w, i, hf, hd, hs⟩⟩
  · cases hs.symm.trans h
  · cases hs.symm.trans h
    exact ⟨hh, .inl hf⟩
  · cases hs.symm.trans h
    exact ⟨hh, .inr (.inl ⟨w, e, hf, hd, rfl⟩)⟩
  · obtain ⟨n, ra, imm, shift, ha, hc⟩ := exec_fault (hs.symm.trans h)
    exact ⟨hh, .inr (.inr ⟨w, i, n, ra, imm, shift, hf, hd, ha, hc⟩)⟩

theorem step_ne_refused (s : State) (r : Refusal) : step s ≠ .refused r := by
  intro h
  rcases step_cases s with ⟨-, hs⟩ | ⟨-, ⟨f, -, hs⟩ | ⟨w, e, -, -, hs⟩ | ⟨w, i, -, -, hs⟩⟩
  · cases hs.symm.trans h
  · cases hs.symm.trans h
  · cases hs.symm.trans h
  · exact exec_ne_refused i s r (hs.symm.trans h)

/-- Only a load or store can end in anything but a next state (R139, R171). -/
theorem exec_next_of_no_access {i : Instr} (ha : i.access = none) (s : State) : ∃ t, exec i s = .next t := by
  cases he : exec i s with
  | next t => exact ⟨t, rfl⟩
  | fault f =>
    obtain ⟨_, _, _, _, ha', -⟩ := exec_fault he
    cases ha.symm.trans ha'
  | refused r => exact absurd he (exec_ne_refused i s r)

/-! ## A run after a fault -/

/-- A run with a fault recorded takes no further step (R172). -/
theorem Run.ticks_of_faulted {r : Run} {f : Fault} (h : r.status = .faulted f) (n : Nat) : r.ticks n = r :=
  Run.ticks_of_ne_running (by rw [h]; exact Status.noConfusion) n

theorem Run.start_of_running {s : State} (h : s.halted = false) : Run.start s = ⟨s, .running⟩ := by
  simp [Run.start, State.status, h]

/-- A run whose first step faults keeps its state, with the fault recorded (R172). -/
theorem Run.start_tick_of_fault {s : State} {f : Fault} (h : step s = .fault f) :
    (Run.start s).tick = ⟨s, .faulted f⟩ := by
  rw [Run.start_of_running (step_fault h).1]
  simp [Run.tick, h]

theorem Run.start_ticks_of_fault {s : State} {f : Fault} (h : step s = .fault f) (n : Nat) :
    (Run.start s).ticks (n + 1) = ⟨s, .faulted f⟩ := by
  rw [Run.ticks, Run.start_tick_of_fault h]
  exact Run.ticks_of_faulted rfl n

/-! ## The obligations -/

/-- Settles O46: each check comes before those that follow it, and its fault is the outcome of the step. -/
theorem stepReportsTheFirstFaultInOrder : Obligations.StepReportsTheFirstFaultInOrder := by
  refine fun s hs => ⟨fun hp => ?misalignedFetch, fun hp hm => ?unmappedFetch, fun w hf hd => ?illegal,
    fun w i n ra imm shift a hf hd ha hea => ?access⟩
  case misalignedFetch => exact step_fetch_error hs (fetch_misaligned ((aligned_eq_false_iff ..).2 hp))
  case unmappedFetch =>
    exact step_fetch_error hs (fetch_unmapped ((aligned_iff ..).2 hp) ((mappedAccess_eq_false_iff ..).2 hm))
  case illegal =>
    cases he : decode s.config w with
    | ok i => exact absurd he (hd i)
    | error e => exact step_decode_error hs hf he
  case access =>
    subst hea
    rw [step_decoded hs hf hd]
    exact ⟨fun h => exec_of_checkAccess_error ha (checkAccess_misaligned h),
      fun h hm => exec_of_checkAccess_error ha (checkAccess_unmapped h ((mappedAccess_eq_false_iff ..).2 hm))⟩

/-- Settles O47: a run whose first step faults keeps its state and is faulted from then on, never halted. -/
theorem faultIsPreciseAndFinal : Obligations.FaultIsPreciseAndFinal := by
  refine ⟨fun s f h => ⟨(step_fault h).1, Run.start_ticks_of_fault h⟩, fun r f n h => Run.ticks_of_faulted h n, ?_⟩
  rintro s f h ⟨n, hn⟩
  cases n with
  | zero =>
    have hstart : (Run.start s).status = .running := by rw [Run.start_of_running (step_fault h).1]
    cases hstart.symm.trans hn
  | succ n =>
    rw [Run.start_ticks_of_fault h] at hn
    cases hn

/-- Settles O48: the fault is that of the fetch, of the decoder, or of the check of an access. -/
theorem faultsAreRaisedOnlyAsListed : Obligations.FaultsAreRaisedOnlyAsListed := by
  intro s f h
  obtain ⟨-, hf | ⟨w, e, hf, hd, rfl⟩ | ⟨w, i, n, ra, imm, shift, hf, hd, ha, hc⟩⟩ := step_fault h
  · exact (fetch_fault hf).imp_right .inl
  · have hrow : ∀ r ∈ s.config.rows, w &&& r.mask ≠ r.pattern := fun r hr hw =>
      Bool.eq_false_iff.1 (no_row_of_decode_error hd r hr) ((OpRow.fits_iff r w).2 hw)
    exact .inr (.inr (.inl ⟨w, rfl, hf, hrow⟩))
  · refine .inr (.inr (.inr ⟨w, i, n, ra, imm, shift, hf, hd, ha, ?_⟩))
    exact (checkAccess_fault hc).imp_left fun ⟨hfault, hmis⟩ => ⟨hfault, ne_byte_of_misaligned hmis, hmis⟩

/-- Settles O49: neither the step nor the instruction it runs is refused, and only an access faults. -/
theorem noInstructionIsRefused : Obligations.NoInstructionIsRefused := by
  refine ⟨step_ne_refused, fun i s ha => exec_next_of_no_access ha s, fun s => ?_⟩
  cases h : step s with
  | next t => exact .inl ⟨t, h⟩
  | fault f => exact .inr ⟨f, rfl⟩
  | refused r => exact absurd h (step_ne_refused s r)

end Sys2Proof.Machine
end

section
/-! SUPPORT. The words the spec assembles and those it calls illegal (95_test_vectors.md section 2), reset and the word
that stands at the pc when the machine starts to run (70_reset_and_hazards.md); then the proofs of those statements. -/

namespace Sys2Proof

/-! ## Words of the spec's tables -/

/-- The low 32 bits of a word's number are the word. -/
theorem ofNat_toNat_mod (w : Word) : BitVec.ofNat 32 (w.toNat % 2 ^ 32) = w := by
  rw [Nat.mod_eq_of_lt w.isLt, BitVec.ofNat_toNat, BitVec.setWidth_eq]

/-- What is read from a word laid out in memory is what the decoder makes of the word, big endian both ways (R35). -/
theorem decodeTableWord_toNat (w : Word) : decodeTableWord 32 w.toNat = (decode .defaults w).toOption := by
  have hbytes := decodeBytes_bytesOfWord .defaults w []
  rw [List.append_nil] at hbytes
  rw [decodeTableWord, ofNat_toNat_mod, hbytes]
  cases decode .defaults w <;> rfl

/-- The word that encodes a well-formed instruction is read back as that instruction. -/
theorem decodeTableWord_encode (i : Instr) (hi : i.wf = true) :
    decodeTableWord 32 (encode .defaults i).toNat = some i := by
  rw [decodeTableWord_toNat, Machine.decode_encode defaults_wf hi]
  rfl

/-- From a word that the decoder rejects nothing is read. -/
theorem decodeTableWord_eq_none {w : Word} {e : Reject} (h : decode .defaults w = .error e) :
    decodeTableWord 32 w.toNat = none := by
  rw [decodeTableWord_toNat, h]
  rfl

end Sys2Proof

namespace Sys2Proof.Machine

/-! ## A word loaded at the pc -/

section Load

variable (s : State) (w : Word)

/-- Loading a word at the pc puts its four bytes there (R192). -/
theorem State.withFetchWord_toNat : s.withFetchWord 32 w.toNat = s.putBytes s.pc (bytesOfWord w) := by
  rw [State.withFetchWord, ofNat_toNat_mod]

/-- A word loaded at an aligned pc inside `MEM_MAP` is the word fetched there (R192). -/
theorem fetch_withFetchWord (ha : aligned s.pc .word = true) (hm : mappedAccess s.config s.pc .word = true) :
    fetch (s.withFetchWord 32 w.toNat) = .ok w := by
  rw [State.withFetchWord_toNat]
  have hpc : (s.putBytes s.pc (bytesOfWord w)).pc = s.pc := State.putBytes_pc ..
  have hok : checkAccess (s.putBytes s.pc (bytesOfWord w)) s.pc .word = .ok () :=
    (checkAccess_ok_iff ..).2 ⟨ha, by rwa [State.putBytes_config]⟩
  refine fetch_of_memRead32 (by rwa [hpc]) ?_
  rw [hpc]
  exact memRead32_of_holds (State.putBytes_holds s s.pc w .word) hok

/-- Loading a word changes no byte but the four at the pc. -/
theorem State.withFetchWord_byteAt_of_outside {b : Word} (hb : ∀ k, k < 4 → b ≠ s.pc + BitVec.ofNat 32 k) :
    (s.withFetchWord 32 w.toNat).byteAt b = s.byteAt b := by
  rw [State.withFetchWord_toNat]
  exact State.putBytes_byteAt_of_outside s s.pc (bytesOfWord w) (storedBytes_length_le w .word) hb

/-- Storing bytes changes nothing but memory: with the old memory put back the state is the old one. -/
theorem State.putBytes_setMem_self (a : Word) (bs : List Byte) : (s.putBytes a bs).setMem s.mem = s := by
  simp [State.setMem]

theorem PcResult.refl : PcResult s s s.pc :=
  ⟨fun _ => rfl, rfl, rfl, fun _ => rfl, rfl, rfl, rfl⟩

end Load

/-! ## The obligations -/

/-- Settles O51: the loaded word is fetched and decodes to the instruction, and the load stores four bytes only. -/
theorem loadedWordIsWhatTheNextStepRuns : Obligations.LoadedWordIsWhatTheNextStepRuns := by
  intro s i hc hi hs ha hm
  have hload := State.withFetchWord_toNat s (encode s.config i)
  refine ⟨?step, fun b hb => State.withFetchWord_byteAt_of_outside s _ hb, ?frame⟩
  case step =>
    refine step_decoded (w := encode s.config i) ?_ (fetch_withFetchWord s _ ha hm) ?_
    · rwa [hload, State.putBytes_halted]
    · rw [hload, State.putBytes_config, decode_encode hc hi]
  case frame =>
    rw [hload, State.putBytes_setMem_self]
    exact PcResult.refl s

/-- Settles O9: a machine after reset is not halted, so its first step is of the word read at `RESET_PC`. -/
theorem resetStartsRunningAtResetPc : Obligations.ResetStartsRunningAtResetPc := by
  intro c m
  have hs : (State.resetWith c m).halted = false := State.resetWith_halted c m
  have hstart : (Run.start (State.resetWith c m)).status = .running := by rw [Run.start_of_running hs]
  refine ⟨State.resetWith_pc c m, hs, hstart, State.resetWith_mem c m, State.resetWith_config c m,
    fun w i ha hw hd => ?_, State.reset_eq, rfl⟩
  exact step_decoded hs (fetch_of_memRead32 ha hw) hd

/-- Settles O1: each word of the first table is the encoding of the instruction beside it; those of the second have an
unassigned opcode and ext, or a reserved bit set. -/
theorem wordsOfTheSpecDecode : Obligations.WordsOfTheSpecDecode := by
  have hunassigned : decode .defaults 0xFFFFFFFF#32 = .error (.unassigned 0xFFFFFFFF#32) :=
    decode_unassigned (by decide) (by decide) (by decide)
  have hreservedRRR : decode .defaults 0x40C60012#32 = .error (.reservedBitsSet 0x40C60012#32) :=
    decode_reservedBitsSet (by decide) (by decide) (r := opcodeTable[12]) (List.getElem_mem _) (by decide) (by decide)
  have hldwExt01 : decode .defaults 0x2CC50000#32 = .error (.unassigned 0x2CC50000#32) :=
    decode_unassigned (by decide) (by decide) (by decide)
  have hreservedRRi : decode .defaults 0x60C50024#32 = .error (.reservedBitsSet 0x60C50024#32) :=
    decode_reservedBitsSet (by decide) (by decide) (r := opcodeTable[24]) (List.getElem_mem _) (by decide) (by decide)
  exact ⟨
    decodeTableWord_encode (.add 3 1 2) rfl, decodeTableWord_encode (.subi 1 1 1) rfl,
    decodeTableWord_encode (.xori 3 1 0xFFFF) rfl, decodeTableWord_encode (.sri 3 1 31) rfl,
    decodeTableWord_encode (.movih 3 0xABCD) rfl, decodeTableWord_encode (.ldw 3 1 1 2) rfl,
    decodeTableWord_encode (.sthw 3 1 2 0) rfl, decodeTableWord_encode (.bne 0xFFFE) rfl,
    decodeTableWord_encode (.j 0xFFFF 4) rfl, decodeTableWord_encode (.jlr 15 4 2) rfl,
    decodeTableWord_encode .halt rfl,
    decodeTableWord_eq_none hunassigned, decodeTableWord_eq_none hreservedRRR,
    decodeTableWord_eq_none hldwExt01, decodeTableWord_eq_none hreservedRRi⟩

end Sys2Proof.Machine
end
